-- ==== Sys2Proof/Word.lean ====
section
/-! DEFINITION. The word types of the Resona core: every register, address and immediate is a `u32` (R10),
memory is made of bytes (R30), packed lanes have 16 and 8 bits (R15), a register index has 5 bits (R20). -/

namespace Sys2Proof

/-- A `u32`: register value, program counter, address or decoded immediate (R10). -/
abbrev Word := BitVec 32

/-- A byte of memory, and an 8-bit lane (R15, R30). -/
abbrev Byte := BitVec 8

/-- A 16-bit lane (R15). -/
abbrev Half := BitVec 16

/-- A 5-bit register index; every index names a register (R20). -/
abbrev RegIdx := BitVec 5

end Sys2Proof
end

