-- ==== Sys2Proof/Config.lean ====
section
/-! DEFINITION. The implementation parameters of R8, fixed when a machine is built; no instruction reads or writes
them (R28). They are plain data, carried unchanged in `State.cfg`, so that every statement about the machine is a
statement about every setting. The default values are in Decode.lean (`Config.default`). -/

namespace Sys2Proof

/-- `UNKNOWN_POLICY`: what executing an `Unknown` does (R8, R171; D9). -/
inductive UnknownPolicy where
  | halt
  | continue
deriving DecidableEq, Repr

/-- `MISALIGNED_PC_POLICY`: what a fetch at a pc that is no multiple of 4 does (R8, R172; D16). -/
inductive MisalignedPcPolicy where
  | halt
  | fetchUnaligned
deriving DecidableEq, Repr

/-- `PACKED_F3`: the funct3 of each packed operation under opcode 0x33, funct7 0x01 (R8, R80; D6). -/
structure PackedF3 where
  pmul16  : BitVec 3
  padd16s : BitVec 3
  psub16  : BitVec 3
  psra16  : BitVec 3
  pack8   : BitVec 3
deriving DecidableEq, Repr

/-- `CUSTOM0_F3`: the funct3 of each operation under opcode 0x0B (R8, R80; D7). -/
structure Custom0F3 where
  pmac8  : BitVec 3
  bitrev : BitVec 3
deriving DecidableEq, Repr

/-- The parameters of R8 that are not fixed by the spec. -/
structure Config where
  /-- `MEM_SIZE`, the number of bytes of memory (D12). -/
  memSize            : Nat
  unknownPolicy      : UnknownPolicy
  misalignedPcPolicy : MisalignedPcPolicy
  packedF3           : PackedF3
  custom0F3          : Custom0F3
deriving DecidableEq, Repr

/-- "must keep the values distinct within each opcode" (R8). No standard row uses funct7 0x01 under opcode 0x33. -/
def PackedF3.wf (p : PackedF3) : Bool :=
  decide [p.pmul16, p.padd16s, p.psub16, p.psra16, p.pack8].Nodup

/-- "must keep the values distinct within each opcode" (R8). No standard row uses opcode 0x0B. -/
def Custom0F3.wf (p : Custom0F3) : Bool :=
  decide (p.pmac8 ≠ p.bitrev)

/-- A legal setting of the parameters: `4 <= MEM_SIZE <= 2^32`, funct3 maps without repeats (R8). -/
def Config.wf (c : Config) : Bool :=
  decide (4 ≤ c.memSize) && decide (c.memSize ≤ 2 ^ 32) && c.packedF3.wf && c.custom0F3.wf

end Sys2Proof
end

