-- ==== Sys2Proof/Syntax.lean ====
section
/-! DEFINITION. The instructions: one constructor per row of spec/opcode_table.json, each carrying only the operand
fields its encoding uses, register indices as 5-bit values and immediates as words already extended (R82). The
`Unknown(raw)` case of R82 is no row of the table: it is the second constructor of `Decoded` in Decode.lean. -/

namespace Sys2Proof

/-- One case per row of R80 (R82). `imm` is immI for addi, xori and lw, immU for lui, immS for sw, immB for beq and
bne, immJ for jal. -/
inductive Instr where
  | add     (rd rs1 rs2 : RegIdx)
  | sub     (rd rs1 rs2 : RegIdx)
  | or      (rd rs1 rs2 : RegIdx)
  | and     (rd rs1 rs2 : RegIdx)
  | pmul16  (rd rs1 rs2 : RegIdx)
  | padd16s (rd rs1 rs2 : RegIdx)
  | psub16  (rd rs1 rs2 : RegIdx)
  | psra16  (rd rs1 rs2 : RegIdx)
  | pack8   (rd rs1 rs2 : RegIdx)
  | addi    (rd rs1 : RegIdx) (imm : Word)
  | xori    (rd rs1 : RegIdx) (imm : Word)
  | lui     (rd : RegIdx) (imm : Word)
  | lw      (rd rs1 : RegIdx) (imm : Word)
  | sw      (rs1 rs2 : RegIdx) (imm : Word)
  | beq     (rs1 rs2 : RegIdx) (imm : Word)
  | bne     (rs1 rs2 : RegIdx) (imm : Word)
  | jal     (rd : RegIdx) (imm : Word)
  | pmac8   (rd rs1 rs2 : RegIdx)
  | bitrev  (rd rs1 : RegIdx)
deriving DecidableEq, Repr

end Sys2Proof
end

