-- ==== Sys2Proof/WellFormed.lean ====
section
/-! DEFINITION. Which terms of `Instr` an encoding exists for: each immediate lies in the range its format gives it
(the "Range" sentences of R74, R75, R76 and R78, and the zero low bits of R77). A register index is a 5-bit value,
so every one is legal (R20). -/

namespace Sys2Proof

/-- I- and S-immediates: "Range: -2048 to +2047" (R74, R75). -/
def immOk12 (imm : Word) : Bool :=
  decide (-2048 ≤ imm.toInt) && decide (imm.toInt ≤ 2047)

/-- B-immediates: "Range: -4096 to +4094, even values only" (R76). -/
def immOkB (imm : Word) : Bool :=
  decide (-4096 ≤ imm.toInt) && decide (imm.toInt ≤ 4094) && decide (imm.toInt % 2 = 0)

/-- U-immediates: "low 12 bits forced to zero" (R77). -/
def immOkU (imm : Word) : Bool :=
  decide (imm.toNat % 4096 = 0)

/-- J-immediates: "Range: -1048576 to +1048574, even values only" (R78). -/
def immOkJ (imm : Word) : Bool :=
  decide (-1048576 ≤ imm.toInt) && decide (imm.toInt ≤ 1048574) && decide (imm.toInt % 2 = 0)

/-- An instruction some word encodes (R74 to R78, R82). -/
def Instr.wf : Instr → Bool
  | .add _ _ _     => true
  | .sub _ _ _     => true
  | .or _ _ _      => true
  | .and _ _ _     => true
  | .pmul16 _ _ _  => true
  | .padd16s _ _ _ => true
  | .psub16 _ _ _  => true
  | .psra16 _ _ _  => true
  | .pack8 _ _ _   => true
  | .addi _ _ imm  => immOk12 imm
  | .xori _ _ imm  => immOk12 imm
  | .lui _ imm     => immOkU imm
  | .lw _ _ imm    => immOk12 imm
  | .sw _ _ imm    => immOk12 imm
  | .beq _ _ imm   => immOkB imm
  | .bne _ _ imm   => immOkB imm
  | .jal _ imm     => immOkJ imm
  | .pmac8 _ _ _   => true
  | .bitrev _ _    => true

end Sys2Proof
end

