-- ==== Sys2Proof/Decode.lean ====
section
/-! DEFINITION. The decoder, a total and pure map from a 32-bit word to an instruction or `Unknown` (R70 to R81), and
after it the encoder, written from the same format table (R72, R80). Also the byte order of an instruction word (R51),
the defaults of the parameters (R8, R80) and the host's `decodeTableWord`.

The funct3 values of the standard rows and the register field positions are standard RISC-V ones, PRESUMED by the spec
itself (D3, D4, D5; log 8); those of the custom rows are parameters (D6, D7; log 7). -/

namespace Sys2Proof

/-! ### Bit fields, sign extension, byte order -/

/-- `sext_N(f)`: bits N-1:0 are `f` and bits 31:N all equal `f[N-1]` (R11). -/
def sext {n : Nat} (f : BitVec n) : Word := f.signExtend 32

/-- opcode = bits 6:0 (R71). -/
def opcodeOf (w : Word) : BitVec 7 := w.extractLsb' 0 7
/-- rd = bits 11:7 (R71). -/
def rdOf (w : Word) : RegIdx := w.extractLsb' 7 5
/-- funct3 = bits 14:12 (R71). -/
def funct3Of (w : Word) : BitVec 3 := w.extractLsb' 12 3
/-- rs1 = bits 19:15 (R71). -/
def rs1Of (w : Word) : RegIdx := w.extractLsb' 15 5
/-- rs2 = bits 24:20 (R71). -/
def rs2Of (w : Word) : RegIdx := w.extractLsb' 20 5
/-- funct7 = bits 31:25 (R71). -/
def funct7Of (w : Word) : BitVec 7 := w.extractLsb' 25 7

/-- `immI = sext_12(w[31:20])` (R74). -/
def immI (w : Word) : Word := sext (w.extractLsb' 20 12)

/-- `immS = sext_12({w[31:25], w[11:7]})` (R75, C1). -/
def immS (w : Word) : Word := sext (w.extractLsb' 25 7 ++ w.extractLsb' 7 5)

/-- `immB = sext_13({w[31], w[7], w[30:25], w[11:8], 0b0})` (R76). -/
def immB (w : Word) : Word :=
  sext (w.extractLsb' 31 1 ++ w.extractLsb' 7 1 ++ w.extractLsb' 25 6 ++ w.extractLsb' 8 4 ++ 0#1)

/-- `immU = {w[31:12], 0x000}` (R77). -/
def immU (w : Word) : Word := w.extractLsb' 12 20 ++ 0#12

/-- `immJ = sext_21({w[31], w[19:12], w[20], w[30:21], 0b0})` (R78). -/
def immJ (w : Word) : Word :=
  sext (w.extractLsb' 31 1 ++ w.extractLsb' 12 8 ++ w.extractLsb' 20 1 ++ w.extractLsb' 21 10 ++ 0#1)

/-- The word whose bytes are `b0` (lowest address) to `b3`: `{b3, b2, b1, b0}` (R13, R51). -/
def leWord (b0 b1 b2 b3 : Byte) : Word := b3 ++ b2 ++ b1 ++ b0

/-- Byte `k` of a word in memory order: bits 8k+7:8k (R13, R52). -/
def leByte (w : Word) (k : Nat) : Byte := w.extractLsb' (8 * k) 8

/-- The four bytes of a word, lowest address first (R13, R52). -/
def leBytes (w : Word) : List Byte := [leByte w 0, leByte w 1, leByte w 2, leByte w 3]

/-! ### Defaults of the parameters -/

/-- The default `PACKED_F3` (R80; D6; DESIGN CHOICE of the spec, log 7). -/
def defaultPackedF3 : PackedF3 :=
  { pmul16 := 0b000, padd16s := 0b001, psub16 := 0b010, psra16 := 0b011, pack8 := 0b100 }

/-- The default `CUSTOM0_F3` (R80; D7; DESIGN CHOICE of the spec, log 7). -/
def defaultCustom0F3 : Custom0F3 := { pmac8 := 0b000, bitrev := 0b001 }

/-- The default parameters of R8 (log 7). -/
def Config.default : Config :=
  { memSize := 0x00100000, unknownPolicy := .halt, misalignedPcPolicy := .halt,
    packedF3 := defaultPackedF3, custom0F3 := defaultCustom0F3 }

/-! ### The decoder -/

/-- The decoder's output: R82's closed sum, a row's instruction or `Unknown(raw)` (log 2). -/
inductive Decoded where
  | instr (i : Instr)
  /-- No row matches; the original word is carried unchanged (R81). -/
  | unknown (raw : Word)
deriving DecidableEq, Repr

/-- Opcode 0x33: the register-register rows, selected by funct7 and funct3 (R79, R80). -/
def decodeOp (p : PackedF3) (w : Word) : Decoded :=
  if funct7Of w = 0b0000000 then
    if funct3Of w = 0b000 then .instr (.add (rdOf w) (rs1Of w) (rs2Of w))
    else if funct3Of w = 0b110 then .instr (.or (rdOf w) (rs1Of w) (rs2Of w))
    else if funct3Of w = 0b111 then .instr (.and (rdOf w) (rs1Of w) (rs2Of w))
    else .unknown w
  else if funct7Of w = 0b0100000 then
    if funct3Of w = 0b000 then .instr (.sub (rdOf w) (rs1Of w) (rs2Of w))
    else .unknown w
  else if funct7Of w = 0b0000001 then
    if funct3Of w = p.pmul16 then .instr (.pmul16 (rdOf w) (rs1Of w) (rs2Of w))
    else if funct3Of w = p.padd16s then .instr (.padd16s (rdOf w) (rs1Of w) (rs2Of w))
    else if funct3Of w = p.psub16 then .instr (.psub16 (rdOf w) (rs1Of w) (rs2Of w))
    else if funct3Of w = p.psra16 then .instr (.psra16 (rdOf w) (rs1Of w) (rs2Of w))
    else if funct3Of w = p.pack8 then .instr (.pack8 (rdOf w) (rs1Of w) (rs2Of w))
    else .unknown w
  else .unknown w

/-- Opcode 0x13: addi and xori (R80). -/
def decodeOpImm (w : Word) : Decoded :=
  if funct3Of w = 0b000 then .instr (.addi (rdOf w) (rs1Of w) (immI w))
  else if funct3Of w = 0b100 then .instr (.xori (rdOf w) (rs1Of w) (immI w))
  else .unknown w

/-- Opcode 0x03: lw (R80). -/
def decodeLoad (w : Word) : Decoded :=
  if funct3Of w = 0b010 then .instr (.lw (rdOf w) (rs1Of w) (immI w)) else .unknown w

/-- Opcode 0x23: sw (R80). -/
def decodeStore (w : Word) : Decoded :=
  if funct3Of w = 0b010 then .instr (.sw (rs1Of w) (rs2Of w) (immS w)) else .unknown w

/-- Opcode 0x63: beq and bne (R80). -/
def decodeBranch (w : Word) : Decoded :=
  if funct3Of w = 0b000 then .instr (.beq (rs1Of w) (rs2Of w) (immB w))
  else if funct3Of w = 0b001 then .instr (.bne (rs1Of w) (rs2Of w) (immB w))
  else .unknown w

/-- Opcode 0x0B: pmac8 and bitrev; bitrev ignores its rs2 field (R80, R86). -/
def decodeCustom0 (p : Custom0F3) (w : Word) : Decoded :=
  if funct7Of w = 0b0000000 then
    if funct3Of w = p.pmac8 then .instr (.pmac8 (rdOf w) (rs1Of w) (rs2Of w))
    else if funct3Of w = p.bitrev then .instr (.bitrev (rdOf w) (rs1Of w))
    else .unknown w
  else .unknown w

/-- `decode` of R80: dispatch on the 7-bit opcode, then on funct3 and funct7 (R79); any word not listed is
`Unknown(w)` (R81). -/
def decode (cfg : Config) (w : Word) : Decoded :=
  if opcodeOf w = 0b0110011 then decodeOp cfg.packedF3 w
  else if opcodeOf w = 0b0010011 then decodeOpImm w
  else if opcodeOf w = 0b0110111 then .instr (.lui (rdOf w) (immU w))
  else if opcodeOf w = 0b0000011 then decodeLoad w
  else if opcodeOf w = 0b0100011 then decodeStore w
  else if opcodeOf w = 0b1100011 then decodeBranch w
  else if opcodeOf w = 0b1101111 then .instr (.jal (rdOf w) (immJ w))
  else if opcodeOf w = 0b0001011 then decodeCustom0 cfg.custom0F3 w
  else .unknown w

/-- Decoding from bytes in memory order: the first four bytes make the word (R70, R51), the rest is left over; fewer
than four bytes are no instruction word. -/
def decodeBytes (cfg : Config) : List Byte → Option (Decoded × List Byte)
  | b0 :: b1 :: b2 :: b3 :: rest => some (decode cfg (leWord b0 b1 b2 b3), rest)
  | _ => none

/-! ### The encoder -/

/-- R format: funct7, rs2, rs1, funct3, rd, opcode (R72). -/
def encR (funct7 : BitVec 7) (rs2 rs1 : RegIdx) (funct3 : BitVec 3) (rd : RegIdx) (opcode : BitVec 7) : Word :=
  funct7 ++ rs2 ++ rs1 ++ funct3 ++ rd ++ opcode

/-- I format: imm[11:0], rs1, funct3, rd, opcode (R72). -/
def encI (imm : Word) (rs1 : RegIdx) (funct3 : BitVec 3) (rd : RegIdx) (opcode : BitVec 7) : Word :=
  imm.extractLsb' 0 12 ++ rs1 ++ funct3 ++ rd ++ opcode

/-- S format: imm[11:5], rs2, rs1, funct3, imm[4:0], opcode (R72). -/
def encS (imm : Word) (rs2 rs1 : RegIdx) (funct3 : BitVec 3) (opcode : BitVec 7) : Word :=
  imm.extractLsb' 5 7 ++ rs2 ++ rs1 ++ funct3 ++ imm.extractLsb' 0 5 ++ opcode

/-- B format: imm[12], imm[10:5], rs2, rs1, funct3, imm[4:1], imm[11], opcode (R72). -/
def encB (imm : Word) (rs2 rs1 : RegIdx) (funct3 : BitVec 3) (opcode : BitVec 7) : Word :=
  imm.extractLsb' 12 1 ++ imm.extractLsb' 5 6 ++ rs2 ++ rs1 ++ funct3 ++ imm.extractLsb' 1 4 ++
    imm.extractLsb' 11 1 ++ opcode

/-- U format: imm[31:12], rd, opcode (R72). -/
def encU (imm : Word) (rd : RegIdx) (opcode : BitVec 7) : Word :=
  imm.extractLsb' 12 20 ++ rd ++ opcode

/-- J format: imm[20], imm[10:1], imm[11], imm[19:12], rd, opcode (R72). -/
def encJ (imm : Word) (rd : RegIdx) (opcode : BitVec 7) : Word :=
  imm.extractLsb' 20 1 ++ imm.extractLsb' 1 10 ++ imm.extractLsb' 11 1 ++ imm.extractLsb' 12 8 ++ rd ++ opcode

/-- The word of a well-formed instruction (R72, R80). The rs2 field that bitrev ignores is written as zeros (log 2). -/
def encode (cfg : Config) : Instr → Word
  | .add rd rs1 rs2     => encR 0b0000000 rs2 rs1 0b000 rd 0b0110011
  | .sub rd rs1 rs2     => encR 0b0100000 rs2 rs1 0b000 rd 0b0110011
  | .or rd rs1 rs2      => encR 0b0000000 rs2 rs1 0b110 rd 0b0110011
  | .and rd rs1 rs2     => encR 0b0000000 rs2 rs1 0b111 rd 0b0110011
  | .pmul16 rd rs1 rs2  => encR 0b0000001 rs2 rs1 cfg.packedF3.pmul16 rd 0b0110011
  | .padd16s rd rs1 rs2 => encR 0b0000001 rs2 rs1 cfg.packedF3.padd16s rd 0b0110011
  | .psub16 rd rs1 rs2  => encR 0b0000001 rs2 rs1 cfg.packedF3.psub16 rd 0b0110011
  | .psra16 rd rs1 rs2  => encR 0b0000001 rs2 rs1 cfg.packedF3.psra16 rd 0b0110011
  | .pack8 rd rs1 rs2   => encR 0b0000001 rs2 rs1 cfg.packedF3.pack8 rd 0b0110011
  | .addi rd rs1 imm    => encI imm rs1 0b000 rd 0b0010011
  | .xori rd rs1 imm    => encI imm rs1 0b100 rd 0b0010011
  | .lui rd imm         => encU imm rd 0b0110111
  | .lw rd rs1 imm      => encI imm rs1 0b010 rd 0b0000011
  | .sw rs1 rs2 imm     => encS imm rs2 rs1 0b010 0b0100011
  | .beq rs1 rs2 imm    => encB imm rs2 rs1 0b000 0b1100011
  | .bne rs1 rs2 imm    => encB imm rs2 rs1 0b001 0b1100011
  | .jal rd imm         => encJ imm rd 0b1101111
  | .pmac8 rd rs1 rs2   => encR 0b0000000 rs2 rs1 cfg.custom0F3.pmac8 rd 0b0001011
  | .bitrev rd rs1      => encR 0b0000000 0 rs1 cfg.custom0F3.bitrev rd 0b0001011

/-! ### The host's question -/

/-- The word whose low `nbits` bits are those of `w` and whose other bits are zero. -/
def tableWord (nbits w : Nat) : Word := BitVec.ofNat 32 (w % 2 ^ nbits)

/-- The instruction the decoder reads, under the default parameters, from the bytes of an opcode-table word laid out
in memory order. -/
def decodeTableWord (nbits w : Nat) : Option Instr :=
  match decodeBytes Config.default (leBytes (tableWord nbits w)) with
  | some (.instr i, _) => some i
  | _ => none

end Sys2Proof
end

