-- ==== Sys2Proof/Machine/State.lean ====
section
/-! DEFINITION. The state of the machine, the tuple `(X, pc, M, run)` of 10_state.md, together with its fixed
parameters (R8) and its one output record (R175); the reasons a step can stop; the state right after reset (R34). -/

namespace Sys2Proof.Machine

/-- Memory as the list of the bytes that differ from what an unlisted address reads as, in rising order of address
(R30; `Memory.wf` in Ops.lean is its canonical form). -/
abbrev Memory := List Host.Cell

/-- The four halt reasons, each recording its raw word or address (R191). -/
inductive HaltReason where
  /-- Code 0: the fetched word decodes to `Unknown` and `UNKNOWN_POLICY = Halt`. -/
  | unknownInstruction (raw : Word)
  /-- Code 1: `int(pc) + 4 > MEM_SIZE` at fetch. -/
  | fetchOutOfRange (pc : Word)
  /-- Code 2: `pc mod 4 != 0` at fetch and `MISALIGNED_PC_POLICY = Halt`. -/
  | misalignedPc (pc : Word)
  /-- Code 3: `lw` or `sw` with `int(EA) + 4 > MEM_SIZE`. -/
  | dataOutOfBounds (addr : Word)
deriving DecidableEq, Repr

/-- The control-loop state (R31). -/
inductive RunState where
  | running
  | halted (reason : HaltReason)
deriving DecidableEq, Repr

/-- One event of the Unknown diagnostic: the raw word and the pc (R171, R175). -/
structure Diag where
  raw : Word
  pc  : Word
deriving DecidableEq, Repr

/-- An instruction's effect on the pc: advance by 4, or go to a computed target (R170). -/
inductive ControlEffect where
  | continue
  | redirect (target : Word)
deriving DecidableEq, Repr

/-- The whole state of the machine (10_state.md, "The machine has nothing else"). -/
structure State where
  /-- The parameters of R8, fixed for the machine: no step changes them (log 1). -/
  cfg   : Config
  /-- x0 to x31 (R20); slot 0 holds 0 (R21, log 12). -/
  regs  : Vector Word 32
  /-- The program counter, a byte offset into memory (R24). -/
  pc    : Word
  /-- `M` (R30). -/
  mem   : Memory
  /-- Running or halted with a reason (R31). -/
  run   : RunState
  /-- The Unknown diagnostics emitted so far, oldest first: an output record no rule reads (R175, log 4). -/
  diags : List Diag
deriving DecidableEq, Repr

/-- Why `step` gives no next state. Only `step` raises these, and only in a state whose run has already ended: "No
step is enabled in it" (R195, log 3). Both are safe: the machine has no further behaviour there. -/
inductive Fault where
  /-- Raised by `step` alone, on a machine that has halted for a fatal reason: FetchOutOfRange, MisalignedPc or
  DataOutOfBounds (R195, R196). Safe. -/
  | fatal (reason : HaltReason)
  /-- Raised by `step` alone, on a machine whose run has ended with the one reason that is not fatal,
  UnknownInstruction (R195, R196). Safe. -/
  | ended (reason : HaltReason)
deriving DecidableEq, Repr

/-- Why something is given no meaning. No instruction's meaning answers with one. -/
inductive Refusal where
  /-- An arm of `exec` whose instruction has no meaning yet; no arm is left in that case. Safe. -/
  | notModelled (mnemonic : String)
  /-- Raised by the loader `boot` alone: the program image is longer than memory, so "the launch is refused, and no
  step happens" (R211). Safe. -/
  | imageTooLarge (length : Nat)
deriving DecidableEq, Repr

/-- The reset state for given parameters, before any image is copied in: pc 0, Running, x0 to x31 zero (x1 to x31 by
the spec's decision D11, log 5), memory zero (R34, R210). -/
def State.resetWith (cfg : Config) : State :=
  { cfg := cfg, regs := Vector.replicate 32 0, pc := 0, mem := [], run := .running, diags := [] }

/-- The machine right after reset with the default parameters and no image loaded (R8, R34). -/
def State.reset : State := State.resetWith Config.default

end Sys2Proof.Machine
end

