-- ==== Sys2Proof/Machine/Ops.lean ====
section
/-! DEFINITION. The named operations over memory, registers, the pc and the run state that every instruction is built
from: byte and word access to memory (20_memory.md), register access with the zero sink (R12, R21), the control effect
(R170), and the one way an error ends a run, the halt (R191, R194). There is no return from a halt (R195): a new run is
a new reset (Boot.lean). -/

namespace Sys2Proof.Machine

/-! ### Bytes of memory -/

/-- What an address that is not listed reads as: memory is "zero-initialized" (R34). -/
def Memory.unlisted : Byte := 0x00

/-- The byte at address `a`. -/
def Memory.read : Memory → Nat → Byte
  | [], _ => Memory.unlisted
  | c :: m, a => if c.1 = a then c.2 else Memory.read m a

/-- Forget address `a`, which then reads as `unlisted`. -/
def Memory.erase (m : Memory) (a : Nat) : Memory := m.filter fun c => c.1 != a

/-- Put a cell before the first one of a higher address. -/
def Memory.insert : Memory → Nat → Byte → Memory
  | [], a, b => [(a, b)]
  | c :: m, a, b => if a < c.1 then (a, b) :: c :: m else c :: Memory.insert m a b

/-- Set the byte at address `a`, keeping the canonical form: writing `unlisted` removes the cell. -/
def Memory.write (m : Memory) (a : Nat) (b : Byte) : Memory :=
  if b = Memory.unlisted then Memory.erase m a else Memory.insert (Memory.erase m a) a b

/-- Write consecutive bytes from address `a` on. -/
def Memory.writeBytes : Memory → Nat → List Byte → Memory
  | m, _, [] => m
  | m, a, b :: bs => Memory.writeBytes (Memory.write m a b) (a + 1) bs

/-- The canonical form: addresses strictly rising, no cell that an unlisted address would read alike. -/
def Memory.wf (m : Memory) : Bool :=
  decide (m.Pairwise fun c d => c.1 < d.1) && m.all fun c => c.2 != Memory.unlisted

/-- `MemRead(a, 4)`, little-endian (R13, R51). -/
def Memory.read32 (m : Memory) (a : Nat) : Word :=
  leWord (Memory.read m a) (Memory.read m (a + 1)) (Memory.read m (a + 2)) (Memory.read m (a + 3))

/-- `MemWrite(a, 4, v)`, little-endian (R13, R52). -/
def Memory.write32 (m : Memory) (a : Nat) (v : Word) : Memory :=
  Memory.writeBytes m a (leBytes v)

/-! ### Word access with the bounds test -/

/-- All four bytes of the word at `a` lie in memory: `int(a) + 4 <= MEM_SIZE`, as integers (R55). -/
def inBounds (cfg : Config) (a : Word) : Bool := decide (a.toNat + 4 ≤ cfg.memSize)

/-- Read the word at `a`, any alignment (R54); none when it is out of bounds (R55). -/
def State.loadWord (s : State) (a : Word) : Option Word :=
  if inBounds s.cfg a then some (s.mem.read32 a.toNat) else none

/-- Write the word at `a`, any alignment (R54); none, and nothing written, when it is out of bounds (R55). -/
def State.storeWord (s : State) (a v : Word) : Option State :=
  if inBounds s.cfg a then some { s with mem := s.mem.write32 a.toNat v } else none

/-! ### Registers -/

/-- `x[r]`; `x[0]` always reads as zero (R12, R21). -/
def State.readReg (s : State) (r : RegIdx) : Word :=
  if r = 0 then 0 else s.regs[r.toNat]'r.isLt

/-- `x[r] <- v`; no effect when `r` is 0 (R12, R21). -/
def State.writeReg (s : State) (r : RegIdx) (v : Word) : State :=
  if r = 0 then s else { s with regs := s.regs.set r.toNat v r.isLt }

/-! ### The pc and the run state -/

/-- The address of the next instruction in sequence, `pc + 4` mod 2^32 (R25, D17). -/
def State.nextPc (s : State) : Word := s.pc + 4

/-- Apply the effect an instruction yields (R170, step 5 of R172). -/
def State.applyEffect (s : State) : ControlEffect → State
  | .continue => { s with pc := s.nextPc }
  | .redirect target => { s with pc := target }

/-- The end of every instruction of one destination register: write it and continue. All sources were read before
(R23). -/
def State.retire (s : State) (rd : RegIdx) (v : Word) : Host.Outcome State Fault Refusal :=
  .next ((s.writeReg rd v).applyEffect .continue)

/-- `raise Halt(reason)`: the step writes `run` and nothing else; the pc stays (R14, R194, log 3). -/
def State.raiseHalt (s : State) (reason : HaltReason) : Host.Outcome State Fault Refusal :=
  .next { s with run := .halted reason }

/-- Emit the Unknown diagnostic (R171, R175). -/
def State.emitDiag (s : State) (raw : Word) : State :=
  { s with diags := s.diags ++ [{ raw := raw, pc := s.pc }] }

/-- Which halts are fatal to the run (R196). -/
def HaltReason.fatal : HaltReason → Bool
  | .unknownInstruction _ => false
  | .fetchOutOfRange _ => true
  | .misalignedPc _ => true
  | .dataOutOfBounds _ => true

/-- What a step answers once the run has ended for this reason: no step is enabled (R195, R196, log 3). -/
def HaltReason.toFault (reason : HaltReason) : Fault :=
  if reason.fatal then .fatal reason else .ended reason

end Sys2Proof.Machine
end

