-- ==== Sys2Proof/Machine/Operands.lean ====
section
/-! DEFINITION. The operand forms: the base-plus-displacement address of a load or store (R130), the pc-relative target
of a branch or jump (R140), and the lanes of the packed instructions with their saturation (R15, R150, R151). The
register and immediate forms are `State.readReg` and a decoded immediate itself. -/

namespace Sys2Proof.Machine

/-- `EA = x[rs1] + imm` mod 2^32; the base register is never modified (R130, D18). -/
def State.effAddr (s : State) (rs1 : RegIdx) (imm : Word) : Word := s.readReg rs1 + imm

/-- `target = pc + imm` mod 2^32, from the instruction's own pc (R140, D17). -/
def State.target (s : State) (imm : Word) : Word := s.pc + imm

/-- `h0(v) = v[15:0]` (R15). -/
def h0 (v : Word) : Half := v.extractLsb' 0 16

/-- `h1(v) = v[31:16]` (R15). -/
def h1 (v : Word) : Half := v.extractLsb' 16 16

/-- `b_i(v) = v[8i+7:8i]` for i = 0..3 (R15). -/
def byteLane (v : Word) (i : Nat) : Byte := v.extractLsb' (8 * i) 8

/-- `pack16(l0, l1) = {l1, l0}` (R15). -/
def pack16 (l0 l1 : Half) : Word := l1 ++ l0

/-- `sat16(v)`: clamp to [-32768, +32767], as a 16-bit two's-complement pattern (R151, C5). -/
def sat16 (v : Int) : Half :=
  if 32767 < v then BitVec.ofInt 16 32767
  else if v < -32768 then BitVec.ofInt 16 (-32768)
  else BitVec.ofInt 16 v

/-- Apply one operation to the same-numbered 16-bit lanes of two words (R150). -/
def lanes16 (f : Half → Half → Half) (a b : Word) : Word :=
  pack16 (f (h0 a) (h0 b)) (f (h1 a) (h1 b))

/-- The exact signed product of byte lane `i` of two words (R157). -/
def byteProduct (a b : Word) (i : Nat) : Int :=
  (byteLane a i).toInt * (byteLane b i).toInt

/-- The exact sum of the four signed byte-lane products, in [-65024, 65536] (R157). -/
def byteDot (a b : Word) : Int :=
  byteProduct a b 0 + byteProduct a b 1 + byteProduct a b 2 + byteProduct a b 3

/-- The reversal of R158 carried out for its low `n` bits: `r[i] = v[31 - i]` for i below `n`, zeros above. -/
def reverseLow (v : Word) : Nat → Word
  | 0 => 0
  | n + 1 => reverseLow v n ||| (((v >>> (31 - n)) &&& 1) <<< n)

/-- The word with its bits in the opposite order: `r[i] = v[31 - i]` for i in 0..31 (R158). -/
def reverseBits (v : Word) : Word := reverseLow v 32

end Sys2Proof.Machine
end

