-- ==== Sys2Proof/Machine/Flags.lean ====
section
/-! DEFINITION. The machine has no flags, condition codes or predicates, and no instruction records overflow, carry or
saturation anywhere (R27), so there is no flag computation. What stands in their place is here: the conditions the two
branches test, comparisons of two registers, and the control effect a condition selects (R141, R142, R170). -/

namespace Sys2Proof.Machine

/-- The condition of beq: all 32 bits equal (R10, R141). -/
def State.condEq (s : State) (rs1 rs2 : RegIdx) : Bool := decide (s.readReg rs1 = s.readReg rs2)

/-- The condition of bne (R142). -/
def State.condNe (s : State) (rs1 rs2 : RegIdx) : Bool := decide (s.readReg rs1 ≠ s.readReg rs2)

/-- A branch redirects to its target when its condition holds and continues otherwise (R170). -/
def State.branchEffect (s : State) (taken : Bool) (imm : Word) : ControlEffect :=
  if taken then .redirect (s.target imm) else .continue

end Sys2Proof.Machine
end

