-- ==== Sys2Proof/Machine/Alu.lean ====
section
/-! DEFINITION. Base integer arithmetic and logic, 40_alu_base.md. Every instruction here continues, writes one register
and cannot halt. -/

namespace Sys2Proof.Machine

/-- `x[rd] <- x[rs1] + x[rs2]` mod 2^32 (R110). -/
def execAdd (rd rs1 rs2 : RegIdx) (s : State) : Host.Outcome State Fault Refusal :=
  s.retire rd (s.readReg rs1 + s.readReg rs2)

/-- `x[rd] <- x[rs1] - x[rs2]` mod 2^32 (R111). -/
def execSub (rd rs1 rs2 : RegIdx) (s : State) : Host.Outcome State Fault Refusal :=
  s.retire rd (s.readReg rs1 - s.readReg rs2)

/-- `x[rd] <- x[rs1] | x[rs2]` (R112). -/
def execOr (rd rs1 rs2 : RegIdx) (s : State) : Host.Outcome State Fault Refusal :=
  s.retire rd (s.readReg rs1 ||| s.readReg rs2)

/-- `x[rd] <- x[rs1] & x[rs2]` (R113). -/
def execAnd (rd rs1 rs2 : RegIdx) (s : State) : Host.Outcome State Fault Refusal :=
  s.retire rd (s.readReg rs1 &&& s.readReg rs2)

/-- `x[rd] <- x[rs1] + immI` mod 2^32 (R114). -/
def execAddi (rd rs1 : RegIdx) (imm : Word) (s : State) : Host.Outcome State Fault Refusal :=
  s.retire rd (s.readReg rs1 + imm)

/-- `x[rd] <- x[rs1] ^ immI` (R115). -/
def execXori (rd rs1 : RegIdx) (imm : Word) (s : State) : Host.Outcome State Fault Refusal :=
  s.retire rd (s.readReg rs1 ^^^ imm)

/-- `x[rd] <- immU` (R116). -/
def execLui (rd : RegIdx) (imm : Word) (s : State) : Host.Outcome State Fault Refusal :=
  s.retire rd imm

end Sys2Proof.Machine
end

