-- ==== Sys2Proof/Machine/Control.lean ====
section
/-! DEFINITION. Control transfer, 42_control.md. None of these halts in its own step: a target outside memory or a
misaligned one halts at the next fetch (R172). -/

namespace Sys2Proof.Machine

/-- Redirect to `pc + immB` when x[rs1] = x[rs2], else continue (R141). -/
def execBeq (rs1 rs2 : RegIdx) (imm : Word) (s : State) : Host.Outcome State Fault Refusal :=
  .next (s.applyEffect (s.branchEffect (s.condEq rs1 rs2) imm))

/-- Redirect to `pc + immB` when x[rs1] and x[rs2] differ, else continue (R142). -/
def execBne (rs1 rs2 : RegIdx) (imm : Word) (s : State) : Host.Outcome State Fault Refusal :=
  .next (s.applyEffect (s.branchEffect (s.condNe rs1 rs2) imm))

/-- `x[rd] <- pc + 4` and redirect to `pc + immJ`, both from the pc of this jal (R143). -/
def execJal (rd : RegIdx) (imm : Word) (s : State) : Host.Outcome State Fault Refusal :=
  .next ((s.writeReg rd s.nextPc).applyEffect (.redirect (s.target imm)))

end Sys2Proof.Machine
end

