-- ==== Sys2Proof/Machine/LoadStore.lean ====
section
/-! DEFINITION. Loads and stores, 41_load_store.md. -/

namespace Sys2Proof.Machine

/-- Load the word at EA into rd, or halt with `DataOutOfBounds(EA)` and write nothing else. With rd = x0 the value is
discarded, but the bounds check and any halt still happen (R131). -/
def execLw (rd rs1 : RegIdx) (imm : Word) (s : State) : Host.Outcome State Fault Refusal :=
  match s.loadWord (s.effAddr rs1 imm) with
  | some v => s.retire rd v
  | none => s.raiseHalt (.dataOutOfBounds (s.effAddr rs1 imm))

/-- Store x[rs2] at EA, or halt with `DataOutOfBounds(EA)` and write no byte (R132). -/
def execSw (rs1 rs2 : RegIdx) (imm : Word) (s : State) : Host.Outcome State Fault Refusal :=
  match s.storeWord (s.effAddr rs1 imm) (s.readReg rs2) with
  | some t => .next (t.applyEffect .continue)
  | none => s.raiseHalt (.dataOutOfBounds (s.effAddr rs1 imm))

end Sys2Proof.Machine
end

