-- ==== Sys2Proof/Machine/Packed.lean ====
section
/-! DEFINITION. Packed arithmetic and bit permutation, 43_packed.md. Every instruction here continues, writes one
register and cannot halt. The historical saturating-add variant is not reproduced (R160). -/

namespace Sys2Proof.Machine

/-- The low 16 bits of the exact signed product of two lanes (R152). -/
def mulLane (a b : Half) : Half := BitVec.ofInt 16 (a.toInt * b.toInt)

/-- The saturated exact signed sum of two lanes (R153). -/
def addsLane (a b : Half) : Half := sat16 (a.toInt + b.toInt)

/-- The wrapping difference of two lanes (R154). -/
def subLane (a b : Half) : Half := a - b

/-- The shift amount of psra16: bits 3:0 of x[rs2] (R155). -/
def sraAmount (v : Word) : BitVec 4 := v.extractLsb' 0 4

/-- One lane shifted right arithmetically (R155). -/
def sraLane (sh : BitVec 4) (a : Half) : Half := a.sshiftRight sh.toNat

/-- `{b1(b), b1(a), b0(b), b0(a)}` (R156, D25, C6). -/
def interleaveBytes (a b : Word) : Word :=
  byteLane b 1 ++ byteLane a 1 ++ byteLane b 0 ++ byteLane a 0

/-- Dual 16-bit signed multiply, low halves kept (R152). -/
def execPmul16 (rd rs1 rs2 : RegIdx) (s : State) : Host.Outcome State Fault Refusal :=
  s.retire rd (lanes16 mulLane (s.readReg rs1) (s.readReg rs2))

/-- Dual 16-bit signed saturating add (R153). -/
def execPadd16s (rd rs1 rs2 : RegIdx) (s : State) : Host.Outcome State Fault Refusal :=
  s.retire rd (lanes16 addsLane (s.readReg rs1) (s.readReg rs2))

/-- Dual 16-bit wrapping subtract (R154). -/
def execPsub16 (rd rs1 rs2 : RegIdx) (s : State) : Host.Outcome State Fault Refusal :=
  s.retire rd (lanes16 subLane (s.readReg rs1) (s.readReg rs2))

/-- Dual 16-bit arithmetic shift right of x[rs1] by `x[rs2][3:0]` (R155). -/
def execPsra16 (rd rs1 rs2 : RegIdx) (s : State) : Host.Outcome State Fault Refusal :=
  let sh := sraAmount (s.readReg rs2)
  s.retire rd (pack16 (sraLane sh (h0 (s.readReg rs1))) (sraLane sh (h1 (s.readReg rs1))))

/-- Interleaved byte pack of the two low half-words (R156). -/
def execPack8 (rd rs1 rs2 : RegIdx) (s : State) : Host.Outcome State Fault Refusal :=
  s.retire rd (interleaveBytes (s.readReg rs1) (s.readReg rs2))

/-- Four-lane signed-byte multiply-accumulate into the old x[rd], which reads as 0 when rd = x0 (R21, R157). -/
def execPmac8 (rd rs1 rs2 : RegIdx) (s : State) : Host.Outcome State Fault Refusal :=
  s.retire rd (s.readReg rd + BitVec.ofInt 32 (byteDot (s.readReg rs1) (s.readReg rs2)))

/-- 32-bit bit reversal (R158). -/
def execBitrev (rd rs1 : RegIdx) (s : State) : Host.Outcome State Fault Refusal :=
  s.retire rd (reverseBits (s.readReg rs1))

end Sys2Proof.Machine
end

