-- ==== Sys2Proof/Machine/Dispatch.lean ====
section
/-! DEFINITION. One arm per instruction; each calls the meaning its rule of spec/ gives it. -/

namespace Sys2Proof.Machine

def exec (i : Instr) (s : State) : Host.Outcome State Fault Refusal :=
  match i with
  | .add rd rs1 rs2 => Sys2Proof.Machine.execAdd rd rs1 rs2 s
  | .sub rd rs1 rs2 => Sys2Proof.Machine.execSub rd rs1 rs2 s
  | .or rd rs1 rs2 => Sys2Proof.Machine.execOr rd rs1 rs2 s
  | .and rd rs1 rs2 => Sys2Proof.Machine.execAnd rd rs1 rs2 s
  | .pmul16 rd rs1 rs2 => Sys2Proof.Machine.execPmul16 rd rs1 rs2 s
  | .padd16s rd rs1 rs2 => Sys2Proof.Machine.execPadd16s rd rs1 rs2 s
  | .psub16 rd rs1 rs2 => Sys2Proof.Machine.execPsub16 rd rs1 rs2 s
  | .psra16 rd rs1 rs2 => Sys2Proof.Machine.execPsra16 rd rs1 rs2 s
  | .pack8 rd rs1 rs2 => Sys2Proof.Machine.execPack8 rd rs1 rs2 s
  | .addi rd rs1 imm => Sys2Proof.Machine.execAddi rd rs1 imm s
  | .xori rd rs1 imm => Sys2Proof.Machine.execXori rd rs1 imm s
  | .lui rd imm => Sys2Proof.Machine.execLui rd imm s
  | .lw rd rs1 imm => Sys2Proof.Machine.execLw rd rs1 imm s
  | .sw rs1 rs2 imm => Sys2Proof.Machine.execSw rs1 rs2 imm s
  | .beq rs1 rs2 imm => Sys2Proof.Machine.execBeq rs1 rs2 imm s
  | .bne rs1 rs2 imm => Sys2Proof.Machine.execBne rs1 rs2 imm s
  | .jal rd imm => Sys2Proof.Machine.execJal rd imm s
  | .pmac8 rd rs1 rs2 => Sys2Proof.Machine.execPmac8 rd rs1 rs2 s
  | .bitrev rd rs1 => Sys2Proof.Machine.execBitrev rd rs1 s

end Sys2Proof.Machine
end

