-- ==== Sys2Proof/Machine/Sequencer.lean ====
section
/-! DEFINITION. The fetch of the control loop (steps 1 to 3 of R172), the execution of an `Unknown` (R171), and the
placing of an instruction word where the next step fetches. -/

namespace Sys2Proof.Machine

/-- Steps 1 to 3 of R172: the fetch bound, then the alignment of the pc under its policy, then the little-endian word
at the pc. The order is the priority of R193 (D15, D16). -/
def State.fetch (s : State) : Except HaltReason Word :=
  if s.cfg.memSize < s.pc.toNat + 4 then .error (.fetchOutOfRange s.pc)
  else if s.pc.toNat % 4 ≠ 0 ∧ s.cfg.misalignedPcPolicy = .halt then .error (.misalignedPc s.pc)
  else .ok (s.mem.read32 s.pc.toNat)

/-- `Unknown(raw)`: emit the diagnostic, then halt with the pc unchanged or continue, by the policy; no register or
memory change (R171, D9, D10). -/
def execUnknown (raw : Word) (s : State) : Host.Outcome State Fault Refusal :=
  match s.cfg.unknownPolicy with
  | .halt => (s.emitDiag raw).raiseHalt (.unknownInstruction raw)
  | .continue => .next ((s.emitDiag raw).applyEffect .continue)

/-- The state with a word stored, little-endian, at the pc. -/
def State.placeWord (s : State) (w : Word) : State :=
  { s with mem := s.mem.write32 s.pc.toNat w }

end Sys2Proof.Machine
end

