-- ==== Sys2Proof/Machine/Step.lean ====
section
/-! DEFINITION. One step of the control loop (R172): fetch, decode, execute; each meaning applies its own control
effect, so nothing is added around `exec` (log 13). -/

namespace Sys2Proof.Machine

/-- The instruction cycle of a running machine; a machine that has halted has no step (R172, R195). -/
def step (s : State) : Host.Outcome State Fault Refusal :=
  match s.run with
  | .halted reason => .fault reason.toFault
  | .running =>
    match s.fetch with
    | .error reason => s.raiseHalt reason
    | .ok w =>
      match decode s.cfg w with
      | .instr i => exec i s
      | .unknown raw => execUnknown raw s

/-- `s` with the opcode-table word of `nbits` bits stored where `step` fetches next. -/
def State.withFetchWord (s : State) (nbits w : Nat) : State := s.placeWord (tableWord nbits w)

end Sys2Proof.Machine
end

