-- ==== Sys2Proof/Machine/Boot.lean ====
section
/-! DEFINITION. Reset with a program image (R34, R210, R211), the environment's `rst` input. -/

namespace Sys2Proof.Machine

/-- The start of a run: memory all zero, the image copied byte for byte from address 0 on, registers, pc and run at
their reset values; an image longer than memory is refused (R210, R211, D21). -/
def boot (cfg : Config) (image : List Byte) : Host.Outcome State Fault Refusal :=
  if image.length ≤ cfg.memSize then
    .next { State.resetWith cfg with mem := Memory.writeBytes [] 0 image }
  else .refused (.imageTooLarge image.length)

end Sys2Proof.Machine
end

