-- ==== Sys2Proof/Machine/Ports.lean ====
section
/-! DEFINITION. The abstract block interface of R33 (D2): the two inputs that change a run (R192) and the outputs as a
function of the state whose step is about to be taken (log 15). -/

namespace Sys2Proof.Machine

/-- The inputs of R33: `rst` starts a new run with a program image (R210), `step` is one abstract clock (R215). -/
inductive Input where
  | rst (image : List Byte)
  | step
deriving DecidableEq, Repr

/-- What one input does: nothing of an earlier run survives `rst` but the parameters (R195, R210). -/
def clock (input : Input) (s : State) : Host.Outcome State Fault Refusal :=
  match input with
  | .rst image => boot s.cfg image
  | .step => Sys2Proof.Machine.step s

/-- A data access of a step: its address and, for a store, the data. -/
inductive DataAccess where
  | none
  /-- `d_re` set, `d_addr`, and `d_rdata` that memory answers. -/
  | load (addr rdata : Word)
  /-- `d_we` set, `d_addr` and `d_wdata`. -/
  | store (addr wdata : Word)
deriving DecidableEq, Repr

/-- The outputs of R33, and `if_word` and `d_rdata`, which memory answers within the machine. A value no strobe or flag
makes meaningful is absent. -/
structure Ports where
  ifAddr     : Word
  ifWord     : Option Word
  data       : DataAccess
  halted     : Bool
  haltReason : Option HaltReason
  diag       : Option Diag
  regsOut    : Vector Word 32
deriving DecidableEq, Repr

/-- The word fetched by the step about to be taken, if the machine runs and its fetch does not halt (R172). -/
def State.fetched (s : State) : Option Word :=
  match s.run, s.fetch with
  | .running, .ok w => some w
  | _, _ => none

/-- What the decoder gives for that word (R33, R80). -/
def State.decoded (s : State) : Option Decoded := s.fetched.map (decode s.cfg)

/-- The data access of the step about to be taken; an out-of-bounds one reads or writes no byte (R55). -/
def State.dataAccess (s : State) : DataAccess :=
  match s.decoded with
  | some (.instr (.lw _ rs1 imm)) =>
    match s.loadWord (s.effAddr rs1 imm) with
    | some v => .load (s.effAddr rs1 imm) v
    | none => .none
  | some (.instr (.sw rs1 rs2 imm)) =>
    if inBounds s.cfg (s.effAddr rs1 imm) then .store (s.effAddr rs1 imm) (s.readReg rs2) else .none
  | _ => .none

/-- The diagnostic the step about to be taken emits (R171, R175). -/
def State.diagOut (s : State) : Option Diag :=
  match s.decoded with
  | some (.unknown raw) => some { raw := raw, pc := s.pc }
  | _ => none

/-- The reason of a halted machine (R31). -/
def State.haltReason? (s : State) : Option HaltReason :=
  match s.run with
  | .running => none
  | .halted reason => some reason

/-- The outputs of R33. -/
def ports (s : State) : Ports :=
  { ifAddr := s.pc, ifWord := s.fetched, data := s.dataAccess, halted := s.haltReason?.isSome,
    haltReason := s.haltReason?, diag := s.diagOut, regsOut := s.regs }

/-- The numeric labels of the halt reasons (R191, D22). -/
def HaltReason.code : HaltReason → Nat
  | .unknownInstruction _ => 0
  | .fetchOutOfRange _ => 1
  | .misalignedPc _ => 2
  | .dataOutOfBounds _ => 3

end Sys2Proof.Machine
end

