-- ==== Sys2Proof/Safety.lean ====
section
/-! DEFINITION. What counts as a safe run, in the terms claims use: a state reached without a fatal halt (R196), and the
invariant of the machine that every step keeps. -/

namespace Sys2Proof.Machine

/-- The run has ended in one of the three fatal reasons (R196): "no claim may conclude from a run that ended in one of
them". -/
def State.fatallyHalted (s : State) : Bool :=
  match s.run with
  | .running => false
  | .halted reason => reason.fatal

/-- `t` is the state after `n` steps from `s`, and its run has met no fatal halt. -/
def SafeRun (n : Nat) (s t : State) : Prop :=
  Sys2Proof.core.run n s = .next t ∧ t.fatallyHalted = false

/-- A halt reason fits the state it stands in: what raised it is still there to see, since a halt writes nothing else
(R191, R193, R194). -/
def HaltReason.explains (reason : HaltReason) (s : State) : Prop :=
  match reason with
  | .fetchOutOfRange p => p = s.pc ∧ s.cfg.memSize < s.pc.toNat + 4
  | .misalignedPc p =>
    p = s.pc ∧ s.pc.toNat + 4 ≤ s.cfg.memSize ∧ s.pc.toNat % 4 ≠ 0 ∧ s.cfg.misalignedPcPolicy = .halt
  | .unknownInstruction raw =>
    s.fetch = .ok raw ∧ decode s.cfg raw = .unknown raw ∧ s.cfg.unknownPolicy = .halt
  | .dataOutOfBounds ea =>
    s.cfg.memSize < ea.toNat + 4 ∧ ∃ w, s.fetch = .ok w ∧
      ((∃ rd rs1 imm, decode s.cfg w = .instr (.lw rd rs1 imm) ∧ ea = s.effAddr rs1 imm) ∨
       (∃ rs1 rs2 imm, decode s.cfg w = .instr (.sw rs1 rs2 imm) ∧ ea = s.effAddr rs1 imm))

/-- The invariant of the machine, kept by every step. -/
structure State.Inv (s : State) : Prop where
  /-- The parameters are legal (R8). -/
  cfg_wf    : s.cfg.wf = true
  /-- The slot of x0 holds zero (R21). -/
  x0_zero   : s.regs[0] = 0
  /-- Memory is in canonical form, and every listed cell lies in `M[0 .. MEM_SIZE-1]` (R30). -/
  mem_wf    : Memory.wf s.mem = true
  mem_bound : ∀ c ∈ s.mem, c.1 < s.cfg.memSize
  /-- Every target is even (R140), so the pc is. -/
  pc_even   : s.pc.toNat % 2 = 0
  /-- A halted machine halted for a reason its state explains (R191, R194). -/
  halt_ok   : ∀ reason, s.run = .halted reason → reason.explains s

end Sys2Proof.Machine
end

