-- ==== Sys2Proof/Certificates/Slice0/Obligations.lean ====
section
/-! DEFINITION. The statements about the machine, for the provers. First the words they are stated in. -/

/-! ### The words of the statements -/

namespace Sys2Proof

/-- The destination register an instruction names, if its format has one (R72). -/
def Instr.dest? : Instr → Option RegIdx
  | .add rd _ _ | .sub rd _ _ | .or rd _ _ | .and rd _ _ => some rd
  | .pmul16 rd _ _ | .padd16s rd _ _ | .psub16 rd _ _ | .psra16 rd _ _ | .pack8 rd _ _ | .pmac8 rd _ _ => some rd
  | .addi rd _ _ | .xori rd _ _ | .lw rd _ _ => some rd
  | .lui rd _ | .jal rd _ | .bitrev rd _ => some rd
  | .sw _ _ _ | .beq _ _ _ | .bne _ _ _ => none

/-- The row name of an instruction (R83). -/
def Instr.mnemonic : Instr → String
  | .add _ _ _ => "add"
  | .sub _ _ _ => "sub"
  | .or _ _ _ => "or"
  | .and _ _ _ => "and"
  | .pmul16 _ _ _ => "pmul16"
  | .padd16s _ _ _ => "padd16s"
  | .psub16 _ _ _ => "psub16"
  | .psra16 _ _ _ => "psra16"
  | .pack8 _ _ _ => "pack8"
  | .addi _ _ _ => "addi"
  | .xori _ _ _ => "xori"
  | .lui _ _ => "lui"
  | .lw _ _ _ => "lw"
  | .sw _ _ _ => "sw"
  | .beq _ _ _ => "beq"
  | .bne _ _ _ => "bne"
  | .jal _ _ => "jal"
  | .pmac8 _ _ _ => "pmac8"
  | .bitrev _ _ => "bitrev"

/-- A row of the opcode map: mnemonic, match and mask (R83). -/
structure OpcodeRow where
  name  : String
  value : Word
  mask  : Word
deriving DecidableEq, Repr

/-- "A word `w` is an instance of a row when `(w & mask) == match`" (R83). -/
def OpcodeRow.covers (row : OpcodeRow) (w : Word) : Prop := w &&& row.mask = row.value

/-- The opcode map as R83 prints it. -/
def opcodeTable : List OpcodeRow :=
  [ { name := "add",     value := 0x00000033, mask := 0xFE00707F },
    { name := "sub",     value := 0x40000033, mask := 0xFE00707F },
    { name := "or",      value := 0x00006033, mask := 0xFE00707F },
    { name := "and",     value := 0x00007033, mask := 0xFE00707F },
    { name := "pmul16",  value := 0x02000033, mask := 0xFE00707F },
    { name := "padd16s", value := 0x02001033, mask := 0xFE00707F },
    { name := "psub16",  value := 0x02002033, mask := 0xFE00707F },
    { name := "psra16",  value := 0x02003033, mask := 0xFE00707F },
    { name := "pack8",   value := 0x02004033, mask := 0xFE00707F },
    { name := "addi",    value := 0x00000013, mask := 0x0000707F },
    { name := "xori",    value := 0x00004013, mask := 0x0000707F },
    { name := "lui",     value := 0x00000037, mask := 0x0000007F },
    { name := "lw",      value := 0x00002003, mask := 0x0000707F },
    { name := "sw",      value := 0x00002023, mask := 0x0000707F },
    { name := "beq",     value := 0x00000063, mask := 0x0000707F },
    { name := "bne",     value := 0x00001063, mask := 0x0000707F },
    { name := "jal",     value := 0x0000006F, mask := 0x0000007F },
    { name := "pmac8",   value := 0x0000000B, mask := 0xFE00707F },
    { name := "bitrev",  value := 0x0000100B, mask := 0xFE00707F } ]

end Sys2Proof

namespace Sys2Proof.Machine

/-- Between `s` and `t`, register `rd` was written with `v`, unless it is x0, and no other register changed. -/
def WroteReg (s t : State) (rd : RegIdx) (v : Word) : Prop :=
  ∀ r, t.readReg r = if r = rd ∧ rd ≠ 0 then v else s.readReg r

/-- No register changed. -/
def SameRegs (s t : State) : Prop := ∀ r, t.readReg r = s.readReg r

/-- Every byte of memory reads as before. -/
def SameMemory (s t : State) : Prop := ∀ a, Memory.read t.mem a = Memory.read s.mem a

/-- The parameters, the run state and the diagnostics are as before. -/
def SameControl (s t : State) : Prop := t.cfg = s.cfg ∧ t.run = s.run ∧ t.diags = s.diags

/-- `i` completes: it writes `v` to `rd`, the pc advances by 4, and nothing else changes. -/
def Retires (i : Instr) (s : State) (rd : RegIdx) (v : Word) : Prop :=
  ∃ t, exec i s = .next t ∧ WroteReg s t rd v ∧ t.pc = s.pc + 4 ∧ SameMemory s t ∧ SameControl s t

/-- One butterfly swap: exchange neighbouring groups of `stride` bits, `mask` marking the lower group of each pair
(R158). -/
def butterfly (stride : Nat) (mask v : Word) : Word :=
  ((v >>> stride) &&& mask) ||| ((v &&& mask) <<< stride)

/-- "successive butterfly swaps at strides 16,8,4,2,1" (R158). -/
def butterflyReverse (v : Word) : Word :=
  butterfly 1 0x55555555 (butterfly 2 0x33333333 (butterfly 4 0x0F0F0F0F (butterfly 8 0x00FF00FF
    (butterfly 16 0x0000FFFF v))))

/-- The stores of the first `n` steps from `s`, oldest first, as the data port shows them. -/
def storesOf : Nat → State → List (Nat × Word)
  | 0, _ => []
  | n + 1, s =>
    (match (ports s).data with
      | .store addr wdata => [(addr.toNat, wdata)]
      | .load _ _ => []
      | .none => []) ++
    (match step s with
      | .next u => storesOf n u
      | .fault _ => []
      | .refused _ => [])

/-- The byte at address `a` after these stores, if it was `before` before them. -/
def lastWritten (stores : List (Nat × Word)) (before : Byte) (a : Nat) : Byte :=
  stores.foldl (fun b w => if w.1 ≤ a ∧ a < w.1 + 4 then w.2.extractLsb' (8 * (a - w.1)) 8 else b) before

end Sys2Proof.Machine

open Sys2Proof Sys2Proof.Machine

/-! ### Reset, boot, parameters -/

/-- R34 and the defaults of R8. The zero of x1 to x31 rests on D11 (log 5), the default parameters on log 7, the empty
diagnostic list on log 4. -/
def Obligations.ResetStateAsSpecified : Prop :=
  State.reset.pc = 0 ∧ State.reset.run = .running ∧ (∀ r, State.reset.readReg r = 0) ∧
  (∀ a, Memory.read State.reset.mem a = 0x00) ∧ State.reset.diags = [] ∧
  State.reset.cfg.memSize = 0x00100000 ∧ State.reset.cfg.unknownPolicy = .halt ∧
  State.reset.cfg.misalignedPcPolicy = .halt ∧ State.reset.cfg.wf = true

/-- The invariant holds right after reset. -/
def Obligations.ResetMeetsInvariant : Prop := State.reset.Inv

/-- R210 and R211: the image byte for byte from address 0, zero beyond it, registers zero (D11, log 5), pc 0, Running;
an image longer than memory is refused. -/
def Obligations.BootLoadsImageVerbatim : Prop :=
  ∀ (cfg : Config) (image : List Byte),
    (image.length ≤ cfg.memSize → ∃ s, boot cfg image = .next s ∧ s.cfg = cfg ∧ s.pc = 0 ∧ s.run = .running ∧
      s.diags = [] ∧ (∀ r, s.readReg r = 0) ∧ (∀ k, Memory.read s.mem k = image.getD k 0x00)) ∧
    (cfg.memSize < image.length → boot cfg image = .refused (.imageTooLarge image.length))

/-- Every start of a run with legal parameters meets the invariant. -/
def Obligations.BootMeetsInvariant : Prop :=
  ∀ (cfg : Config) (image : List Byte) (s : State), cfg.wf = true → boot cfg image = .next s → s.Inv

/-- R28: "No instruction reads or writes" the parameters; here, no step writes them, and a new run keeps them. -/
def Obligations.ParametersNeverChange : Prop :=
  ∀ (input : Input) (s t : State), clock input s = .next t → t.cfg = s.cfg

/-! ### Registers -/

/-- R12 and R21, and what R21's "Everything else that instruction does still happens" comes to for each instruction that
names x0 as destination. That last clause rests on the spec's own decisions: the bounds test of lw and the halt that leaves
the pc (D14, logs 3 and 10), no alignment test (D13, log 9), the wrapped EA and pc (D17, D18, log 11). -/
def Obligations.RegisterAccessAndZeroSink : Prop :=
  (∀ s : State, s.readReg 0 = 0) ∧
  (∀ (s : State) (i : RegIdx), i ≠ 0 → s.readReg i = s.regs[i.toNat]'i.isLt) ∧
  (∀ (s : State) (i : RegIdx) (v : Word), i ≠ 0 →
    (s.writeReg i v).readReg i = v ∧ ∀ j, j ≠ i → (s.writeReg i v).readReg j = s.readReg j) ∧
  (∀ (s : State) (v : Word), s.writeReg 0 v = s) ∧
  (∀ (i : Instr) (s : State), i.dest? = some 0 →
    exec i s = .next (match i with
      | .jal _ imm => { s with pc := s.pc + imm }
      | .lw _ rs1 imm =>
        if s.cfg.memSize < (s.readReg rs1 + imm).toNat + 4 then
          { s with run := .halted (.dataOutOfBounds (s.readReg rs1 + imm)) }
        else { s with pc := s.pc + 4 }
      | _ => { s with pc := s.pc + 4 }))

/-- R22 and R23: no register is written implicitly, so a step changes no register but the one its instruction names. -/
def Obligations.OnlyNamedRegisterChanges : Prop :=
  (∀ (i : Instr) (s t : State), exec i s = .next t → ∀ r, i.dest? ≠ some r → t.readReg r = s.readReg r) ∧
  (∀ s t : State, step s = .next t → ∀ r,
    (∀ w i, s.fetch = .ok w → decode s.cfg w = .instr i → i.dest? ≠ some r) → t.readReg r = s.readReg r)

/-! ### Lanes, sign extension -/

/-- R15. -/
def Obligations.LanesAreBitFields : Prop :=
  ∀ v : Word,
    (∀ k, k < 16 → (h0 v).getLsbD k = v.getLsbD k ∧ (h1 v).getLsbD k = v.getLsbD (16 + k)) ∧
    (∀ i k, i < 4 → k < 8 → (byteLane v i).getLsbD k = v.getLsbD (8 * i + k)) ∧
    (∀ (l0 l1 : Half) (k : Nat), k < 16 →
      (pack16 l0 l1).getLsbD k = l0.getLsbD k ∧ (pack16 l0 l1).getLsbD (16 + k) = l1.getLsbD k)

/-- The sext sentences of R11: the field below, its top bit above, and the shift-left, shift-right-arithmetic form. -/
def Obligations.SignExtensionCopiesTopBit : Prop :=
  ∀ (n : Nat) (f : BitVec n), 0 < n → n ≤ 32 →
    (∀ k, k < n → (sext f).getLsbD k = f.getLsbD k) ∧
    (∀ k, n ≤ k → k < 32 → (sext f).getLsbD k = f.getLsbD (n - 1)) ∧
    sext f = ((f.setWidth 32) <<< (32 - n)).sshiftRight (32 - n)

/-! ### Memory -/

/-- R13: the four bytes of a word access, and the bounds test its callers make first (R55, D14). -/
def Obligations.WordAccessIsFourBytes : Prop :=
  (∀ (m : Memory) (a : Nat), Memory.read32 m a =
    Memory.read m (a + 3) ++ Memory.read m (a + 2) ++ Memory.read m (a + 1) ++ Memory.read m a) ∧
  (∀ (m : Memory) (a c : Nat) (v : Word), Memory.read (Memory.write32 m a v) c =
    if c = a then v.extractLsb' 0 8 else if c = a + 1 then v.extractLsb' 8 8
    else if c = a + 2 then v.extractLsb' 16 8 else if c = a + 3 then v.extractLsb' 24 8
    else Memory.read m c) ∧
  (∀ (s : State) (a v : Word), s.cfg.memSize < a.toNat + 4 → s.loadWord a = none ∧ s.storeWord a v = none) ∧
  (∀ (s : State) (a v : Word), a.toNat + 4 ≤ s.cfg.memSize →
    s.loadWord a = some (s.mem.read32 a.toNat) ∧
    s.storeWord a v = some { s with mem := s.mem.write32 a.toNat v })

/-- R51 and R52: lw, the fetch and sw share one byte order, in every state and under every setting. -/
def Obligations.LoadFetchStoreLittleEndian : Prop :=
  (∀ (s t : State) (rd rs1 : RegIdx) (imm : Word), rd ≠ 0 →
    (s.readReg rs1 + imm).toNat + 4 ≤ s.cfg.memSize → exec (.lw rd rs1 imm) s = .next t →
    ∀ k, k < 4 → (t.readReg rd).extractLsb' (8 * k) 8 = Memory.read s.mem ((s.readReg rs1 + imm).toNat + k)) ∧
  (∀ (s : State) (w : Word), s.fetch = .ok w →
    ∀ k, k < 4 → w.extractLsb' (8 * k) 8 = Memory.read s.mem (s.pc.toNat + k)) ∧
  (∀ (s t : State) (rs1 rs2 : RegIdx) (imm : Word),
    (s.readReg rs1 + imm).toNat + 4 ≤ s.cfg.memSize → exec (.sw rs1 rs2 imm) s = .next t →
    ∀ k, k < 4 → Memory.read t.mem ((s.readReg rs1 + imm).toNat + k) = (s.readReg rs2).extractLsb' (8 * k) 8)

/-- The model's own form of memory (log 6): two canonical memories that read alike are equal data. -/
def Obligations.CanonicalMemoryIsDetermined : Prop :=
  ∀ m m' : Memory, Memory.wf m = true → Memory.wf m' = true →
    (∀ a, Memory.read m a = Memory.read m' a) → m = m'

/-- R55 (D14): an access not wholly inside memory halts with its address; no register and no byte is written, and the pc
stays. -/
def Obligations.OutOfBoundsAccessHalts : Prop :=
  ∀ (s : State) (rd rs1 rs2 : RegIdx) (imm : Word), s.cfg.memSize < (s.readReg rs1 + imm).toNat + 4 →
    exec (.lw rd rs1 imm) s = .next { s with run := .halted (.dataOutOfBounds (s.readReg rs1 + imm)) } ∧
    exec (.sw rs1 rs2 imm) s = .next { s with run := .halted (.dataOutOfBounds (s.readReg rs1 + imm)) }

/-- R54 and R57: a load at any byte address sees, byte by byte, the last value written. -/
def Obligations.OverlappingLoadSeesLastBytes : Prop :=
  ∀ (s t : State) (rs1 rs2 rd rb : RegIdx) (imm off : Word),
    (s.readReg rs1 + imm).toNat + 4 ≤ s.cfg.memSize → exec (.sw rs1 rs2 imm) s = .next t →
    rd ≠ 0 → (t.readReg rb + off).toNat + 4 ≤ t.cfg.memSize →
    ∃ u, exec (.lw rd rb off) t = .next u ∧ ∀ k, k < 4 →
      (u.readReg rd).extractLsb' (8 * k) 8 =
        (let a := (s.readReg rs1 + imm).toNat
         let b := (t.readReg rb + off).toNat + k
         if a ≤ b ∧ b < a + 4 then (s.readReg rs2).extractLsb' (8 * (b - a)) 8 else Memory.read s.mem b)

/-- R62 (D20, log 13): a word stored over the next instruction is the one the very next step fetches and runs, whether it
decodes to an instruction or to `Unknown`. The bounds and the pc the fetch accepts are those of D14 to D16 (log 10). -/
def Obligations.StoreSeenByNextFetch : Prop :=
  ∀ (s t : State) (rs1 rs2 : RegIdx) (imm : Word),
    s.readReg rs1 + imm = s.pc + 4 → (s.pc + 4).toNat + 4 ≤ s.cfg.memSize →
    ((s.pc + 4).toNat % 4 = 0 ∨ s.cfg.misalignedPcPolicy = .fetchUnaligned) →
    exec (.sw rs1 rs2 imm) s = .next t →
    t.fetch = .ok (s.readReg rs2) ∧
    (∀ i, s.run = .running → decode s.cfg (s.readReg rs2) = .instr i → step t = exec i t) ∧
    (∀ raw, s.run = .running → decode s.cfg (s.readReg rs2) = .unknown raw → step t = execUnknown raw t)

/-- R30 and R56: memory is "mutated only by store instructions". -/
def Obligations.OnlyStoresChangeMemory : Prop :=
  ∀ s t : State, step s = .next t → t.mem ≠ s.mem →
    ∃ w rs1 rs2 imm, s.fetch = .ok w ∧ decode s.cfg w = .instr (.sw rs1 rs2 imm) ∧
      (s.readReg rs1 + imm).toNat + 4 ≤ s.cfg.memSize

/-! ### Encoding and decoding -/

/-- R75, R76, R77 and R78, bit by bit, with their ranges and the instructions that carry them. -/
def Obligations.ImmediatesFromWordBits : Prop :=
  ∀ (cfg : Config) (w : Word),
    ((∀ k, k < 32 → (immS w).getLsbD k =
        if k < 5 then w.getLsbD (k + 7) else if k < 12 then w.getLsbD (k + 20) else w.getLsbD 31) ∧
      -2048 ≤ (immS w).toInt ∧ (immS w).toInt ≤ 2047 ∧
      ∀ rs1 rs2 imm, decode cfg w = .instr (.sw rs1 rs2 imm) → imm = immS w) ∧
    ((∀ k, k < 32 → (immB w).getLsbD k =
        if k = 0 then false else if k < 5 then w.getLsbD (k + 7) else if k < 11 then w.getLsbD (k + 20)
        else if k = 11 then w.getLsbD 7 else w.getLsbD 31) ∧
      -4096 ≤ (immB w).toInt ∧ (immB w).toInt ≤ 4094 ∧ (immB w).toInt % 2 = 0 ∧
      ∀ rs1 rs2 imm, decode cfg w = .instr (.beq rs1 rs2 imm) ∨ decode cfg w = .instr (.bne rs1 rs2 imm) →
        imm = immB w) ∧
    ((∀ k, k < 32 → (immU w).getLsbD k = if k < 12 then false else w.getLsbD k) ∧
      immU w = w &&& 0xFFFFF000 ∧
      ∀ rd imm, decode cfg w = .instr (.lui rd imm) → imm = immU w) ∧
    ((∀ k, k < 32 → (immJ w).getLsbD k =
        if k = 0 then false else if k < 11 then w.getLsbD (k + 20) else if k = 11 then w.getLsbD 20
        else if k < 20 then w.getLsbD k else w.getLsbD 31) ∧
      -1048576 ≤ (immJ w).toInt ∧ (immJ w).toInt ≤ 1048574 ∧ (immJ w).toInt % 2 = 0 ∧
      ∀ rd imm, decode cfg w = .instr (.jal rd imm) → imm = immJ w)

/-- R74, whose bit position 31:20 the spec takes from general knowledge (D4, log 8). -/
def Obligations.IImmediateFromWordBits : Prop :=
  ∀ (cfg : Config) (w : Word),
    (∀ k, k < 32 → (immI w).getLsbD k = if k < 12 then w.getLsbD (k + 20) else w.getLsbD 31) ∧
    -2048 ≤ (immI w).toInt ∧ (immI w).toInt ≤ 2047 ∧
    ∀ rd rs1 imm, decode cfg w = .instr (.addi rd rs1 imm) ∨ decode cfg w = .instr (.xori rd rs1 imm) ∨
      decode cfg w = .instr (.lw rd rs1 imm) → imm = immI w

/-- Every instruction at every operand value its encoding admits, under every legal setting. -/
def Obligations.DecodeOfEncodeIsIdentity : Prop :=
  ∀ (cfg : Config) (i : Instr), cfg.wf = true → i.wf = true → decode cfg (encode cfg i) = .instr i

/-- The other direction: what the decoder reads is well-formed and encodes back to the word, but for the rs2 field
(bits 24:20) that bitrev ignores (R80, D7; the encoder writes zeros there, log 2). -/
def Obligations.EncodeOfDecodeIsWord : Prop :=
  ∀ (cfg : Config) (w : Word) (i : Instr), decode cfg w = .instr i →
    i.wf = true ∧ encode cfg i = (match i with
      | .bitrev _ _ => w &&& 0xFE0FFFFF
      | _ => w)

/-- R81 and R83 under the default parameters (log 7): the two-level dispatch and the match/mask table say the same, no
two rows cover one word, and an uncovered word is `Unknown` and carried unchanged. -/
def Obligations.DecodeAgreesWithOpcodeTable : Prop :=
  (∀ (w : Word), ∀ row ∈ opcodeTable, row.covers w →
    ∃ i, decode Config.default w = .instr i ∧ i.mnemonic = row.name) ∧
  (∀ (w : Word), (∀ row ∈ opcodeTable, ¬ row.covers w) → decode Config.default w = .unknown w) ∧
  (∀ (w : Word), ∀ row ∈ opcodeTable, ∀ row' ∈ opcodeTable, row.covers w → row'.covers w → row = row') ∧
  (∀ (cfg : Config) (w raw : Word), decode cfg w = .unknown raw → raw = w)

/-- R53, R60, R61, R84, R198: the words of absent instructions are `Unknown` under every setting: every opcode but the eight
(auipc, jalr, fences, atomics, system), other widths of load and store, other branches, other immediate operations; under
0x33 the other funct7, with funct7 0x00 the funct3 of sll, slt, sltu, xor and srl, with 0x20 that of sra and the rest, with
0x01 every funct3 that PACKED_F3 gives no row; under 0x0B every other funct7 and every funct3 that CUSTOM0_F3 gives no row.
Which selectors the rows have and which bits are checked is not the source's: the funct3 of addi, xori, beq and bne, the
funct3 and funct7 of add, sub, or and and (D5) and the strictness (D8) are log 8; pack8 under funct7 0x01 and funct7 0 under
0x0B (D6, D7) are log 7. -/
def Obligations.AbsentInstructionsAreUnknown : Prop :=
  ∀ (cfg : Config) (w : Word),
    (opcodeOf w ∉ [0x33#7, 0x13#7, 0x37#7, 0x03#7, 0x23#7, 0x63#7, 0x6F#7, 0x0B#7] → decode cfg w = .unknown w) ∧
    (opcodeOf w = 0x03 ∨ opcodeOf w = 0x23 → funct3Of w ≠ 2 → decode cfg w = .unknown w) ∧
    (opcodeOf w = 0x63 → funct3Of w ≠ 0 → funct3Of w ≠ 1 → decode cfg w = .unknown w) ∧
    (opcodeOf w = 0x13 → funct3Of w ≠ 0 → funct3Of w ≠ 4 → decode cfg w = .unknown w) ∧
    (opcodeOf w = 0x33 → funct7Of w ∉ [0x00#7, 0x20#7, 0x01#7] → decode cfg w = .unknown w) ∧
    (opcodeOf w = 0x33 → funct7Of w = 0x00 → funct3Of w ∉ [0#3, 6#3, 7#3] → decode cfg w = .unknown w) ∧
    (opcodeOf w = 0x33 → funct7Of w = 0x20 → funct3Of w ≠ 0 → decode cfg w = .unknown w) ∧
    (opcodeOf w = 0x33 → funct7Of w = 0x01 →
      funct3Of w ∉ [cfg.packedF3.pmul16, cfg.packedF3.padd16s, cfg.packedF3.psub16, cfg.packedF3.psra16,
        cfg.packedF3.pack8] → decode cfg w = .unknown w) ∧
    (opcodeOf w = 0x0B → funct7Of w ≠ 0 → decode cfg w = .unknown w) ∧
    (opcodeOf w = 0x0B → funct3Of w ∉ [cfg.custom0F3.pmac8, cfg.custom0F3.bitrev] → decode cfg w = .unknown w)

/-- Words of every family written out from the spec's encodings (default parameters, log 7; field positions, log 8). -/
def Obligations.SampleWordsDecode : Prop :=
  decode Config.default 0x402081B3 = .instr (.sub 3 1 2) ∧
  decode Config.default 0xFFF30293 = .instr (.addi 5 6 0xFFFFFFFF) ∧
  decode Config.default 0xFFFFF4B7 = .instr (.lui 9 0xFFFFF000) ∧
  decode Config.default 0xFFC5A503 = .instr (.lw 10 11 0xFFFFFFFC) ∧
  decode Config.default 0x02C6A223 = .instr (.sw 13 12 0x00000024) ∧
  decode Config.default 0x002090E3 = .instr (.bne 1 2 0x00000800) ∧
  decode Config.default 0x001000EF = .instr (.jal 1 0x00000800) ∧
  decode Config.default 0x0220C1B3 = .instr (.pack8 3 1 2) ∧
  decode Config.default 0x0062850B = .instr (.pmac8 10 5 6) ∧
  decode Config.default 0x0002958B = .instr (.bitrev 11 5) ∧
  decode Config.default 0x00000000 = .unknown 0x00000000

/-! ### Base arithmetic and logic -/

/-- The results of R110 to R116 with their frame. add, sub and addi are the exact signed sum or difference modulo 2^32
(R117). -/
def Obligations.BaseArithmeticResults : Prop :=
  ∀ (s : State) (rd rs1 rs2 : RegIdx) (imm : Word),
    Retires (.add rd rs1 rs2) s rd (BitVec.ofInt 32 ((s.readReg rs1).toInt + (s.readReg rs2).toInt)) ∧
    Retires (.sub rd rs1 rs2) s rd (BitVec.ofInt 32 ((s.readReg rs1).toInt - (s.readReg rs2).toInt)) ∧
    Retires (.or rd rs1 rs2) s rd (s.readReg rs1 ||| s.readReg rs2) ∧
    Retires (.and rd rs1 rs2) s rd (s.readReg rs1 &&& s.readReg rs2) ∧
    Retires (.addi rd rs1 imm) s rd (BitVec.ofInt 32 ((s.readReg rs1).toInt + imm.toInt)) ∧
    Retires (.xori rd rs1 imm) s rd (s.readReg rs1 ^^^ imm) ∧
    Retires (.lui rd imm) s rd imm

/-! ### Loads and stores -/

/-- R130 and R131 in bounds (D13, D14, D18): the word at EA, at any alignment, and the frame. -/
def Obligations.LoadWordResult : Prop :=
  ∀ (s : State) (rd rs1 : RegIdx) (imm : Word), (s.effAddr rs1 imm).toNat + 4 ≤ s.cfg.memSize →
    s.effAddr rs1 imm = s.readReg rs1 + imm ∧
    Retires (.lw rd rs1 imm) s rd
      (Memory.read s.mem ((s.effAddr rs1 imm).toNat + 3) ++ Memory.read s.mem ((s.effAddr rs1 imm).toNat + 2) ++
       Memory.read s.mem ((s.effAddr rs1 imm).toNat + 1) ++ Memory.read s.mem (s.effAddr rs1 imm).toNat)

/-- R130 and R132 in bounds (D13, D14, D18): the four bytes at EA, and the frame. -/
def Obligations.StoreWordResult : Prop :=
  ∀ (s : State) (rs1 rs2 : RegIdx) (imm : Word), (s.effAddr rs1 imm).toNat + 4 ≤ s.cfg.memSize →
    s.effAddr rs1 imm = s.readReg rs1 + imm ∧
    ∃ t, exec (.sw rs1 rs2 imm) s = .next t ∧ SameRegs s t ∧ t.pc = s.pc + 4 ∧ SameControl s t ∧
      ∀ a, Memory.read t.mem a =
        if (s.effAddr rs1 imm).toNat ≤ a ∧ a < (s.effAddr rs1 imm).toNat + 4 then
          (s.readReg rs2).extractLsb' (8 * (a - (s.effAddr rs1 imm).toNat)) 8
        else Memory.read s.mem a

/-- The round trip of R132. -/
def Obligations.StoreThenLoadReturnsValue : Prop :=
  ∀ (s t : State) (rs1 rs2 rd rb : RegIdx) (imm off : Word),
    (s.readReg rs1 + imm).toNat + 4 ≤ s.cfg.memSize → exec (.sw rs1 rs2 imm) s = .next t →
    t.readReg rb + off = s.readReg rs1 + imm →
    ∃ u, exec (.lw rd rb off) t = .next u ∧ u.readReg rd = if rd = 0 then 0 else s.readReg rs2

/-! ### Control transfer -/

/-- R140, R141, R142 (D17): the next pc of a branch, and nothing else changes. -/
def Obligations.BranchResults : Prop :=
  ∀ (s : State) (rs1 rs2 : RegIdx) (imm : Word),
    exec (.beq rs1 rs2 imm) s =
      .next { s with pc := if s.readReg rs1 = s.readReg rs2 then s.pc + imm else s.pc + 4 } ∧
    exec (.bne rs1 rs2 imm) s =
      .next { s with pc := if s.readReg rs1 = s.readReg rs2 then s.pc + 4 else s.pc + imm }

/-- R140 and R143 (D17): link and target both from this jal's pc, wherever the target lies. -/
def Obligations.JumpAndLinkResult : Prop :=
  ∀ (s : State) (rd : RegIdx) (imm : Word),
    ∃ t, exec (.jal rd imm) s = .next t ∧ WroteReg s t rd (s.pc + 4) ∧ t.pc = s.pc + imm ∧
      SameMemory s t ∧ SameControl s t

/-! ### Packed instructions -/

/-- R151. -/
def Obligations.SaturationClampsTo16Bits : Prop :=
  ∀ v : Int, (sat16 v).toInt = max (-32768) (min 32767 v)

/-- The result of R152: each lane is its exact signed product modulo 2^16, and the unsigned product gives the same. -/
def Obligations.PackedMultiplyLanes : Prop :=
  ∀ (s : State) (rd rs1 rs2 : RegIdx), ∃ v, Retires (.pmul16 rd rs1 rs2) s rd v ∧
    ((h0 v).toNat : Int) = ((h0 (s.readReg rs1)).toInt * (h0 (s.readReg rs2)).toInt) % 65536 ∧
    ((h1 v).toNat : Int) = ((h1 (s.readReg rs1)).toInt * (h1 (s.readReg rs2)).toInt) % 65536 ∧
    (h0 v).toNat = ((h0 (s.readReg rs1)).toNat * (h0 (s.readReg rs2)).toNat) % 65536 ∧
    (h1 v).toNat = ((h1 (s.readReg rs1)).toNat * (h1 (s.readReg rs2)).toNat) % 65536

/-- The result of R153: each lane is its exact signed sum clamped to [-32768, 32767]. -/
def Obligations.PackedSaturatingAddLanes : Prop :=
  ∀ (s : State) (rd rs1 rs2 : RegIdx), ∃ v, Retires (.padd16s rd rs1 rs2) s rd v ∧
    (h0 v).toInt = max (-32768) (min 32767 ((h0 (s.readReg rs1)).toInt + (h0 (s.readReg rs2)).toInt)) ∧
    (h1 v).toInt = max (-32768) (min 32767 ((h1 (s.readReg rs1)).toInt + (h1 (s.readReg rs2)).toInt))

/-- The result of R154: each lane is its difference modulo 2^16, with no borrow between lanes. -/
def Obligations.PackedSubtractLanes : Prop :=
  ∀ (s : State) (rd rs1 rs2 : RegIdx), ∃ v, Retires (.psub16 rd rs1 rs2) s rd v ∧
    ((h0 v).toNat : Int) = ((h0 (s.readReg rs1)).toNat - (h0 (s.readReg rs2)).toNat : Int) % 65536 ∧
    ((h1 v).toNat : Int) = ((h1 (s.readReg rs1)).toNat - (h1 (s.readReg rs2)).toNat : Int) % 65536

/-- The result of R155: each signed lane divided by 2 to the power of x[rs2] mod 16, rounded toward minus infinity. -/
def Obligations.PackedShiftLanes : Prop :=
  ∀ (s : State) (rd rs1 rs2 : RegIdx), ∃ v, Retires (.psra16 rd rs1 rs2) s rd v ∧
    (h0 v).toInt = (h0 (s.readReg rs1)).toInt / 2 ^ ((s.readReg rs2).toNat % 16) ∧
    (h1 v).toInt = (h1 (s.readReg rs1)).toInt / 2 ^ ((s.readReg rs2).toNat % 16)

/-- The result of R156 (D25, log 14): the two low half-words interleaved byte by byte. -/
def Obligations.BytePackLanes : Prop :=
  ∀ (s : State) (rd rs1 rs2 : RegIdx), ∃ v, Retires (.pack8 rd rs1 rs2) s rd v ∧
    v.extractLsb' 0 8 = (s.readReg rs1).extractLsb' 0 8 ∧ v.extractLsb' 8 8 = (s.readReg rs2).extractLsb' 0 8 ∧
    v.extractLsb' 16 8 = (s.readReg rs1).extractLsb' 8 8 ∧ v.extractLsb' 24 8 = (s.readReg rs2).extractLsb' 8 8

/-- The result of R157: the old x[rd] plus the exact sum of the four signed byte products, modulo 2^32; the sum lies in
[-65024, 65536]. -/
def Obligations.MultiplyAccumulateBytes : Prop :=
  ∀ (s : State) (rd rs1 rs2 : RegIdx), ∃ v, ∃ dot : Int, Retires (.pmac8 rd rs1 rs2) s rd v ∧
    dot = ∑ i ∈ Finset.range 4,
      ((s.readReg rs1).extractLsb' (8 * i) 8).toInt * ((s.readReg rs2).extractLsb' (8 * i) 8).toInt ∧
    -65024 ≤ dot ∧ dot ≤ 65536 ∧ (v.toNat : Int) = ((s.readReg rd).toNat + dot) % 2 ^ 32

/-- The result of R158: bit k is bit 31 - k of the source. -/
def Obligations.BitReversalResult : Prop :=
  ∀ (s : State) (rd rs1 : RegIdx), ∃ v, Retires (.bitrev rd rs1) s rd v ∧
    ∀ k, k < 32 → v.getLsbD k = (s.readReg rs1).getLsbD (31 - k)

/-- R158: the source's butterfly network computes the same reversal, and reversing twice gives the value back. -/
def Obligations.BitReversalIsButterflyAndInvolution : Prop :=
  (∀ v : Word, butterflyReverse v = reverseBits v) ∧
  (∀ (s t u : State) (rd rd' rs1 : RegIdx), rd ≠ 0 → rd' ≠ 0 →
    exec (.bitrev rd rs1) s = .next t → exec (.bitrev rd' rd) t = .next u → u.readReg rd' = s.readReg rs1)

/-- R150: a lane of the result depends on the same lane of the sources only (and for psra16 on the shift amount, R155). -/
def Obligations.PackedLanesAreIndependent : Prop :=
  ∀ (s s' t t' : State) (rd rs1 rs2 : RegIdx),
    (∀ op ∈ [Instr.pmul16, Instr.padd16s, Instr.psub16],
      exec (op rd rs1 rs2) s = .next t → exec (op rd rs1 rs2) s' = .next t' →
      (h0 (s.readReg rs1) = h0 (s'.readReg rs1) → h0 (s.readReg rs2) = h0 (s'.readReg rs2) →
        h0 (t.readReg rd) = h0 (t'.readReg rd)) ∧
      (h1 (s.readReg rs1) = h1 (s'.readReg rs1) → h1 (s.readReg rs2) = h1 (s'.readReg rs2) →
        h1 (t.readReg rd) = h1 (t'.readReg rd))) ∧
    (exec (.psra16 rd rs1 rs2) s = .next t → exec (.psra16 rd rs1 rs2) s' = .next t' →
      (s.readReg rs2).toNat % 16 = (s'.readReg rs2).toNat % 16 →
      (h0 (s.readReg rs1) = h0 (s'.readReg rs1) → h0 (t.readReg rd) = h0 (t'.readReg rd)) ∧
      (h1 (s.readReg rs1) = h1 (s'.readReg rs1) → h1 (t.readReg rd) = h1 (t'.readReg rd)))

/-! ### The sequencer -/

/-- R170: the pc after each instruction that does not halt. -/
def Obligations.ControlEffectOfEachInstruction : Prop :=
  (∀ (i : Instr) (s t : State), s.run = .running → exec i s = .next t → t.run = .running →
    t.pc = match i with
      | .beq rs1 rs2 imm => if s.readReg rs1 = s.readReg rs2 then s.pc + imm else s.pc + 4
      | .bne rs1 rs2 imm => if s.readReg rs1 ≠ s.readReg rs2 then s.pc + imm else s.pc + 4
      | .jal _ imm => s.pc + imm
      | _ => s.pc + 4) ∧
  (∀ (raw : Word) (s : State), s.cfg.unknownPolicy = .continue →
    ∃ t, execUnknown raw s = .next t ∧ t.run = s.run ∧ t.pc = s.pc + 4)

/-- Steps 3 and 4 of R172: a running machine whose fetch does not halt runs the word at its pc; nothing is added around
`exec` (log 13). -/
def Obligations.StepRunsDecodedInstruction : Prop :=
  ∀ (s : State), s.run = .running → s.pc.toNat + 4 ≤ s.cfg.memSize →
    (s.pc.toNat % 4 = 0 ∨ s.cfg.misalignedPcPolicy = .fetchUnaligned) →
    (∀ i, decode s.cfg (s.mem.read32 s.pc.toNat) = .instr i → step s = exec i s) ∧
    (∀ raw, decode s.cfg (s.mem.read32 s.pc.toNat) = .unknown raw → step s = execUnknown raw s)

/-- The same through the encoder: a well-formed instruction whose encoded word is placed at the pc is the one that
runs. -/
def Obligations.StepRunsEncodedInstruction : Prop :=
  ∀ (s : State) (i : Instr), s.cfg.wf = true → i.wf = true → s.run = .running →
    s.pc.toNat + 4 ≤ s.cfg.memSize → (s.pc.toNat % 4 = 0 ∨ s.cfg.misalignedPcPolicy = .fetchUnaligned) →
    step (s.placeWord (encode s.cfg i)) = exec i (s.placeWord (encode s.cfg i))

/-- R172 and R193 (D15, D16): the fetch bound is tested first, then the alignment; each halts with the pc unchanged. -/
def Obligations.FetchHaltsInPriorityOrder : Prop :=
  ∀ (s : State), s.run = .running →
    (s.cfg.memSize < s.pc.toNat + 4 → step s = .next { s with run := .halted (.fetchOutOfRange s.pc) }) ∧
    (s.pc.toNat + 4 ≤ s.cfg.memSize → s.pc.toNat % 4 ≠ 0 → s.cfg.misalignedPcPolicy = .halt →
      step s = .next { s with run := .halted (.misalignedPc s.pc) })

/-- R171 (D9, D10): an Unknown emits its diagnostic and halts or continues by the policy, and changes nothing else. -/
def Obligations.UnknownHaltsOrContinues : Prop :=
  ∀ (s : State) (w : Word), s.run = .running → s.fetch = .ok w → decode s.cfg w = .unknown w →
    (s.cfg.unknownPolicy = .halt →
      step s = .next { s with
        run := .halted (.unknownInstruction w), diags := s.diags ++ [{ raw := w, pc := s.pc }] }) ∧
    (s.cfg.unknownPolicy = .continue →
      step s = .next { s with pc := s.pc + 4, diags := s.diags ++ [{ raw := w, pc := s.pc }] })

/-- R174: `jal x0, 0` and `beq x0, x0, 0` run forever. -/
def Obligations.SelfLoopsRunForever : Prop :=
  ∀ (s : State) (n : Nat), s.run = .running → (s.fetch = .ok 0x0000006F ∨ s.fetch = .ok 0x00000063) →
    Sys2Proof.core.run n s = .next s

/-- R175: "No rule reads them back": the diagnostics recorded so far change nothing of a step but themselves. -/
def Obligations.DiagnosticsAreNeverRead : Prop :=
  ∀ s t : State, step s = .next t → ∃ new, t.diags = s.diags ++ new ∧
    ∀ ds, step { s with diags := ds } = .next { t with diags := ds ++ new }

/-- R33 (D2, log 15): the data port and the diagnostic port tell all that a step does to memory and to the diagnostics,
and every data access lies in memory. -/
def Obligations.PortsDescribeStep : Prop :=
  ∀ s t : State, step s = .next t →
    (ports s).halted = false ∧ ((ports t).halted = true ↔ t.run ≠ .running) ∧
    t.diags = s.diags ++ (ports s).diag.toList ∧
    (match (ports s).data with
      | .none => t.mem = s.mem
      | .load addr rdata =>
        t.mem = s.mem ∧ addr.toNat + 4 ≤ s.cfg.memSize ∧ rdata = s.mem.read32 addr.toNat
      | .store addr wdata => addr.toNat + 4 ≤ s.cfg.memSize ∧ t.mem = s.mem.write32 addr.toNat wdata)

/-! ### Halts -/

/-- R194 (D10, D14, D15): the step that halts writes `run`, and an Unknown its diagnostic, and nothing else. -/
def Obligations.HaltWritesOnlyRun : Prop :=
  ∀ (s t : State) (reason : HaltReason), step s = .next t → t.run = .halted reason →
    t = { s with
      run := .halted reason,
      diags := s.diags ++ (match reason with
        | .unknownInstruction raw => [{ raw := raw, pc := s.pc }]
        | _ => []) }

/-- R195: a halted machine has no step and only `rst` answers it a next state; and `rst` does start a new run, from a
halted and from a running state alike, with any image that fits (R210, R211). That `rst` carries the image is the model's
form of R33's input (D2, log 15). -/
def Obligations.HaltedIsTerminal : Prop :=
  (∀ (s : State) (reason : HaltReason), s.run = .halted reason →
    (∀ t, step s ≠ .next t) ∧
    (∀ (input : Input) (t : State), clock input s = .next t →
      ∃ image, input = .rst image ∧ boot s.cfg image = .next t ∧ t.run = .running)) ∧
  (∀ (s : State) (image : List Byte), image.length ≤ s.cfg.memSize →
    ∃ t, clock (.rst image) s = .next t ∧ boot s.cfg image = .next t ∧ t.run = .running)

/-- R196, as the model observes it (log 3): a machine that halted for one of the three fatal reasons answers a fatal
fault, and one that met an Unknown answers that its run has ended. -/
def Obligations.FatalHaltsAreFaults : Prop :=
  ∀ (s : State), (∀ raw, s.run = .halted (.unknownInstruction raw) →
      step s = .fault (.ended (.unknownInstruction raw))) ∧
    (∀ p, s.run = .halted (.fetchOutOfRange p) → step s = .fault (.fatal (.fetchOutOfRange p))) ∧
    (∀ p, s.run = .halted (.misalignedPc p) → step s = .fault (.fatal (.misalignedPc p))) ∧
    (∀ a, s.run = .halted (.dataOutOfBounds a) → step s = .fault (.fatal (.dataOutOfBounds a)))

/-! ### The whole machine -/

/-- Every instruction completes, in every state, once a load or store is in bounds (R190: every condition is a defined
result or a halt). That lw and sw complete at every in-bounds EA, aligned or not and wrapped or not, rests on the bounds
test of D14 (log 10), on D13 (log 9) and on D18 (log 11); the pc and targets wrap by D17 (log 11). -/
def Obligations.EveryInstructionCompletes : Prop :=
  ∀ (i : Instr) (s : State),
    (match i with
      | .lw _ rs1 imm => (s.readReg rs1 + imm).toNat + 4 ≤ s.cfg.memSize
      | .sw rs1 _ imm => (s.readReg rs1 + imm).toNat + 4 ≤ s.cfg.memSize
      | _ => True) →
    ∃ t, exec i s = .next t ∧ SameControl s t

/-- R190: a running machine always has a next state, and it is running or halted for one of the four reasons. -/
def Obligations.RunningMachineAlwaysSteps : Prop :=
  ∀ s : State, s.run = .running → ∃ t, step s = .next t

/-- R26 with the default policy of D16: a step that ends in no fatal halt began at an aligned pc inside memory. -/
def Obligations.NonFatalStepsFetchAligned : Prop :=
  ∀ s t : State, step s = .next t → t.fatallyHalted = false →
    s.pc.toNat + 4 ≤ s.cfg.memSize ∧ (s.cfg.misalignedPcPolicy = .halt → s.pc.toNat % 4 = 0)

/-- The invariant of Safety.lean is kept by every step from every state that meets it. -/
def Obligations.StepKeepsInvariant : Prop :=
  ∀ s t : State, s.Inv → step s = .next t → t.Inv

/-- Hence it holds in every state of every run of every image that can be loaded, under every legal setting. -/
def Obligations.EveryRunKeepsInvariant : Prop :=
  ∀ (cfg : Config) (image : List Byte) (n : Nat) (s t : State), cfg.wf = true → boot cfg image = .next s →
    Sys2Proof.core.run n s = .next t → t.Inv

/-- R59: over any run, every byte reads as the last write to it in program order, or, if there was none, as before the
run; from a loaded image, as the image or zero. The writes are those the data port shows (D2, log 15). -/
def Obligations.EveryReadSeesLastWrite : Prop :=
  (∀ (n : Nat) (s t : State), Sys2Proof.core.run n s = .next t →
    ∀ a, Memory.read t.mem a = lastWritten (storesOf n s) (Memory.read s.mem a) a) ∧
  (∀ (cfg : Config) (image : List Byte) (n : Nat) (s t : State), boot cfg image = .next s →
    Sys2Proof.core.run n s = .next t →
    ∀ a, Memory.read t.mem a = lastWritten (storesOf n s) (image.getD a 0x00) a)
end

