-- ==== Sys2Proof/Laws/Decode.lean ====
section
/-! SUPPORT. What a decoded instruction says of its word: the selector values of its row and where its operands came
from (R80). Later proofs cite `decode_row` and do not unfold the decoder. -/

namespace Sys2Proof

/-- The selector fields of an R-format word and its three register fields. -/
def RowR (w : Word) (op f7 : BitVec 7) (f3 : BitVec 3) (rd rs1 rs2 : RegIdx) : Prop :=
  opcodeOf w = op ∧ funct7Of w = f7 ∧ funct3Of w = f3 ∧ rd = rdOf w ∧ rs1 = rs1Of w ∧ rs2 = rs2Of w

/-- The word `w` is one of the words of instruction `i` (R80). -/
def Instr.Row (cfg : Config) (w : Word) : Instr → Prop
  | .add rd rs1 rs2 => RowR w 0x33 0x00 0 rd rs1 rs2
  | .sub rd rs1 rs2 => RowR w 0x33 0x20 0 rd rs1 rs2
  | .or rd rs1 rs2 => RowR w 0x33 0x00 6 rd rs1 rs2
  | .and rd rs1 rs2 => RowR w 0x33 0x00 7 rd rs1 rs2
  | .pmul16 rd rs1 rs2 => RowR w 0x33 0x01 cfg.packedF3.pmul16 rd rs1 rs2
  | .padd16s rd rs1 rs2 => RowR w 0x33 0x01 cfg.packedF3.padd16s rd rs1 rs2
  | .psub16 rd rs1 rs2 => RowR w 0x33 0x01 cfg.packedF3.psub16 rd rs1 rs2
  | .psra16 rd rs1 rs2 => RowR w 0x33 0x01 cfg.packedF3.psra16 rd rs1 rs2
  | .pack8 rd rs1 rs2 => RowR w 0x33 0x01 cfg.packedF3.pack8 rd rs1 rs2
  | .addi rd rs1 imm => opcodeOf w = 0x13 ∧ funct3Of w = 0 ∧ rd = rdOf w ∧ rs1 = rs1Of w ∧ imm = immI w
  | .xori rd rs1 imm => opcodeOf w = 0x13 ∧ funct3Of w = 4 ∧ rd = rdOf w ∧ rs1 = rs1Of w ∧ imm = immI w
  | .lui rd imm => opcodeOf w = 0x37 ∧ rd = rdOf w ∧ imm = immU w
  | .lw rd rs1 imm => opcodeOf w = 0x03 ∧ funct3Of w = 2 ∧ rd = rdOf w ∧ rs1 = rs1Of w ∧ imm = immI w
  | .sw rs1 rs2 imm => opcodeOf w = 0x23 ∧ funct3Of w = 2 ∧ rs1 = rs1Of w ∧ rs2 = rs2Of w ∧ imm = immS w
  | .beq rs1 rs2 imm => opcodeOf w = 0x63 ∧ funct3Of w = 0 ∧ rs1 = rs1Of w ∧ rs2 = rs2Of w ∧ imm = immB w
  | .bne rs1 rs2 imm => opcodeOf w = 0x63 ∧ funct3Of w = 1 ∧ rs1 = rs1Of w ∧ rs2 = rs2Of w ∧ imm = immB w
  | .jal rd imm => opcodeOf w = 0x6F ∧ rd = rdOf w ∧ imm = immJ w
  | .pmac8 rd rs1 rs2 => RowR w 0x0B 0x00 cfg.custom0F3.pmac8 rd rs1 rs2
  | .bitrev rd rs1 =>
    opcodeOf w = 0x0B ∧ funct7Of w = 0x00 ∧ funct3Of w = cfg.custom0F3.bitrev ∧ rd = rdOf w ∧ rs1 = rs1Of w

/-- A decoder's answer: an instruction of that row, or `Unknown` of the word itself. -/
def Decoded.Sound (cfg : Config) (w : Word) : Decoded → Prop
  | .instr i => i.Row cfg w
  | .unknown raw => raw = w

section
variable (cfg : Config) {w : Word}

theorem decodeOp_sound (h : opcodeOf w = 0x33) : (decodeOp cfg.packedF3 w).Sound cfg w := by
  unfold decodeOp
  split_ifs <;> first | rfl | exact ⟨h, by assumption, by assumption, rfl, rfl, rfl⟩

theorem decodeOpImm_sound (h : opcodeOf w = 0x13) : (decodeOpImm w).Sound cfg w := by
  unfold decodeOpImm
  split_ifs <;> first | rfl | exact ⟨h, by assumption, rfl, rfl, rfl⟩

theorem decodeLoad_sound (h : opcodeOf w = 0x03) : (decodeLoad w).Sound cfg w := by
  unfold decodeLoad
  split_ifs <;> first | rfl | exact ⟨h, by assumption, rfl, rfl, rfl⟩

theorem decodeStore_sound (h : opcodeOf w = 0x23) : (decodeStore w).Sound cfg w := by
  unfold decodeStore
  split_ifs <;> first | rfl | exact ⟨h, by assumption, rfl, rfl, rfl⟩

theorem decodeBranch_sound (h : opcodeOf w = 0x63) : (decodeBranch w).Sound cfg w := by
  unfold decodeBranch
  split_ifs <;> first | rfl | exact ⟨h, by assumption, rfl, rfl, rfl⟩

theorem decodeCustom0_sound (h : opcodeOf w = 0x0B) : (decodeCustom0 cfg.custom0F3 w).Sound cfg w := by
  unfold decodeCustom0
  split_ifs
  · exact ⟨h, by assumption, by assumption, rfl, rfl, rfl⟩
  · exact ⟨h, by assumption, by assumption, rfl, rfl⟩
  · rfl
  · rfl

/-- What the decoder answers fits the word, whatever the parameters. -/
theorem decode_sound (w : Word) : (decode cfg w).Sound cfg w := by
  unfold decode
  split_ifs with h1 h2 h3 h4 h5 h6 h7 h8
  · exact decodeOp_sound cfg h1
  · exact decodeOpImm_sound cfg h2
  · exact ⟨h3, rfl, rfl⟩
  · exact decodeLoad_sound cfg h4
  · exact decodeStore_sound cfg h5
  · exact decodeBranch_sound cfg h6
  · exact ⟨h7, rfl, rfl⟩
  · exact decodeCustom0_sound cfg h8
  · rfl

end

/-- The selectors and operand fields of a decoded instruction's word. -/
theorem decode_row {cfg : Config} {w : Word} {i : Instr} (h : decode cfg w = .instr i) : i.Row cfg w := by
  have := decode_sound cfg w
  rwa [h] at this

end Sys2Proof
end

