-- ==== Sys2Proof/Laws/Encoding.lean ====
section
/-! SUPPORT. What each field of an encoded word is: the encoder's formats against the decoder's field extractions (R71,
R72), and the immediates of the four immediate formats (R74 to R78). -/

namespace Sys2Proof

/-- Bits of a field of a word. -/
theorem getLsbD_field (w : Word) (lo n i : Nat) :
    (w.extractLsb' lo n).getLsbD i = (decide (i < n) && w.getLsbD (lo + i)) := BitVec.getLsbD_extractLsb' ..

theorem getLsbD_sext {n : Nat} (f : BitVec n) (i : Nat) :
    (sext f).getLsbD i = (decide (i < 32) && if i < n then f.getLsbD i else f.msb) := by
  unfold sext; exact BitVec.getLsbD_signExtend ..

/-! ### The R format -/

section
variable (f7 op : BitVec 7) (rs2 rs1 rd : RegIdx) (f3 : BitVec 3) (imm : Word)

theorem encR_fields :
    opcodeOf (encR f7 rs2 rs1 f3 rd op) = op ∧ rdOf (encR f7 rs2 rs1 f3 rd op) = rd ∧
    funct3Of (encR f7 rs2 rs1 f3 rd op) = f3 ∧ rs1Of (encR f7 rs2 rs1 f3 rd op) = rs1 ∧
    rs2Of (encR f7 rs2 rs1 f3 rd op) = rs2 ∧ funct7Of (encR f7 rs2 rs1 f3 rd op) = f7 := by
  refine ⟨?_, ?_, ?_, ?_, ?_, ?_⟩ <;>
  · apply BitVec.eq_of_getLsbD_eq
    intro i hi
    simp only [opcodeOf, rdOf, funct3Of, rs1Of, rs2Of, funct7Of, encR, getLsbD_field, BitVec.getLsbD_append]
    grind

theorem encI_fields :
    opcodeOf (encI imm rs1 f3 rd op) = op ∧ rdOf (encI imm rs1 f3 rd op) = rd ∧
    funct3Of (encI imm rs1 f3 rd op) = f3 ∧ rs1Of (encI imm rs1 f3 rd op) = rs1 ∧
    immI (encI imm rs1 f3 rd op) = sext (imm.extractLsb' 0 12) := by
  refine ⟨?_, ?_, ?_, ?_, congrArg sext ?_⟩ <;>
  · apply BitVec.eq_of_getLsbD_eq
    intro i hi
    simp only [opcodeOf, rdOf, funct3Of, rs1Of, encI, getLsbD_field, BitVec.getLsbD_append]
    grind

theorem encS_fields :
    opcodeOf (encS imm rs2 rs1 f3 op) = op ∧ funct3Of (encS imm rs2 rs1 f3 op) = f3 ∧
    rs1Of (encS imm rs2 rs1 f3 op) = rs1 ∧ rs2Of (encS imm rs2 rs1 f3 op) = rs2 ∧
    immS (encS imm rs2 rs1 f3 op) = sext (imm.extractLsb' 0 12) := by
  refine ⟨?_, ?_, ?_, ?_, congrArg sext ?_⟩ <;>
  · apply BitVec.eq_of_getLsbD_eq
    intro i hi
    simp only [opcodeOf, rs2Of, funct3Of, rs1Of, encS, getLsbD_field, BitVec.getLsbD_append]
    grind

theorem encB_fields :
    opcodeOf (encB imm rs2 rs1 f3 op) = op ∧ funct3Of (encB imm rs2 rs1 f3 op) = f3 ∧
    rs1Of (encB imm rs2 rs1 f3 op) = rs1 ∧ rs2Of (encB imm rs2 rs1 f3 op) = rs2 ∧
    immB (encB imm rs2 rs1 f3 op) = sext (imm.extractLsb' 1 12 ++ 0#1) := by
  refine ⟨?_, ?_, ?_, ?_, congrArg sext ?_⟩
  case refine_5 =>
    apply BitVec.eq_of_getLsbD_eq
    intro i hi
    simp only [encB, getLsbD_field, BitVec.getLsbD_append]
    interval_cases i <;> rfl
  all_goals
    apply BitVec.eq_of_getLsbD_eq
    intro i hi
    simp only [opcodeOf, rs2Of, funct3Of, rs1Of, encB, getLsbD_field, BitVec.getLsbD_append]
    grind

theorem encU_fields :
    opcodeOf (encU imm rd op) = op ∧ rdOf (encU imm rd op) = rd ∧
    immU (encU imm rd op) = imm.extractLsb' 12 20 ++ 0#12 := by
  refine ⟨?_, ?_, ?_⟩ <;>
  · apply BitVec.eq_of_getLsbD_eq
    intro i hi
    simp only [opcodeOf, rdOf, immU, encU, getLsbD_field, BitVec.getLsbD_append]
    grind

theorem encJ_fields :
    opcodeOf (encJ imm rd op) = op ∧ rdOf (encJ imm rd op) = rd ∧
    immJ (encJ imm rd op) = sext (imm.extractLsb' 1 20 ++ 0#1) := by
  refine ⟨?_, ?_, congrArg sext ?_⟩
  case refine_3 =>
    apply BitVec.eq_of_getLsbD_eq
    intro i hi
    simp only [encJ, getLsbD_field, BitVec.getLsbD_append]
    interval_cases i <;> rfl
  all_goals
    apply BitVec.eq_of_getLsbD_eq
    intro i hi
    simp only [opcodeOf, rdOf, encJ, getLsbD_field, BitVec.getLsbD_append]
    grind

end

/-! ### A legal immediate is what its field extends to -/

/-- The signed value of a sign-extended field is the field's own (R11). -/
theorem toInt_sext {n : Nat} (hn : n ≤ 32) (f : BitVec n) : (sext f).toInt = f.toInt := by
  unfold sext; exact BitVec.toInt_signExtend_of_le hn

/-- A 12-bit field holds an immediate of its range (R74, R75). -/
theorem sext_low12 {imm : Word} (h : immOk12 imm = true) : sext (imm.extractLsb' 0 12) = imm := by
  simp only [immOk12, Bool.and_eq_true, decide_eq_true_eq] at h
  apply BitVec.eq_of_toInt_eq
  rw [toInt_sext (by omega), BitVec.toInt_eq_toNat_bmod, BitVec.extractLsb'_toNat, Nat.shiftRight_zero]
  have hs := BitVec.toInt_eq_toNat_cond imm
  have := imm.isLt
  simp only [Int.bmod]
  split at hs <;> split <;> omega

/-- A 13-bit field with a zero low bit holds an immediate of its range (R76). -/
theorem sext_low13 {imm : Word} (h : immOkB imm = true) : sext (imm.extractLsb' 1 12 ++ 0#1) = imm := by
  simp only [immOkB, Bool.and_eq_true, decide_eq_true_eq] at h
  apply BitVec.eq_of_toInt_eq
  rw [toInt_sext (by omega), BitVec.toInt_eq_toNat_bmod, BitVec.toNat_append, BitVec.extractLsb'_toNat]
  have hs := BitVec.toInt_eq_toNat_cond imm
  have := imm.isLt
  simp only [Int.bmod, Nat.shiftLeft_eq, Nat.shiftRight_eq_div_pow, BitVec.toNat_ofNat, Nat.zero_mod, Nat.or_zero]
  split at hs <;> split <;> omega

/-- A 21-bit field with a zero low bit holds an immediate of its range (R78). -/
theorem sext_low21 {imm : Word} (h : immOkJ imm = true) : sext (imm.extractLsb' 1 20 ++ 0#1) = imm := by
  simp only [immOkJ, Bool.and_eq_true, decide_eq_true_eq] at h
  apply BitVec.eq_of_toInt_eq
  rw [toInt_sext (by omega), BitVec.toInt_eq_toNat_bmod, BitVec.toNat_append, BitVec.extractLsb'_toNat]
  have hs := BitVec.toInt_eq_toNat_cond imm
  have := imm.isLt
  simp only [Int.bmod, Nat.shiftLeft_eq, Nat.shiftRight_eq_div_pow, BitVec.toNat_ofNat, Nat.zero_mod, Nat.or_zero]
  split at hs <;> split <;> omega

/-- The upper field holds an immediate with zero low bits (R77). -/
theorem upper20 {imm : Word} (h : immOkU imm = true) : imm.extractLsb' 12 20 ++ 0#12 = imm := by
  simp only [immOkU, decide_eq_true_eq] at h
  apply BitVec.eq_of_toNat_eq
  rw [BitVec.toNat_append, BitVec.extractLsb'_toNat]
  have := imm.isLt
  simp only [Nat.shiftLeft_eq, Nat.shiftRight_eq_div_pow, BitVec.toNat_ofNat, Nat.zero_mod, Nat.or_zero]
  omega

/-! ### The ranges of decoded immediates -/

theorem immOk12_sext (f : BitVec 12) : immOk12 (sext f) = true := by
  have := BitVec.toInt_lt (x := f)
  have := BitVec.le_toInt (x := f)
  simp only [immOk12, toInt_sext (show 12 ≤ 32 by omega), Bool.and_eq_true, decide_eq_true_eq]
  omega

theorem immOkB_sext (f : BitVec 12) : immOkB (sext (f ++ 0#1)) = true := by
  simp only [immOkB, toInt_sext (show 12 + 1 ≤ 32 by omega), Bool.and_eq_true, decide_eq_true_eq]
  rw [BitVec.toInt_eq_toNat_cond, BitVec.toNat_append]
  have := f.isLt
  simp only [Nat.shiftLeft_eq, BitVec.toNat_ofNat, Nat.zero_mod, Nat.or_zero]
  split <;> omega

theorem immOkJ_sext (f : BitVec 20) : immOkJ (sext (f ++ 0#1)) = true := by
  simp only [immOkJ, toInt_sext (show 20 + 1 ≤ 32 by omega), Bool.and_eq_true, decide_eq_true_eq]
  rw [BitVec.toInt_eq_toNat_cond, BitVec.toNat_append]
  have := f.isLt
  simp only [Nat.shiftLeft_eq, BitVec.toNat_ofNat, Nat.zero_mod, Nat.or_zero]
  split <;> omega

theorem immOkU_append (f : BitVec 20) : immOkU (f ++ 0#12) = true := by
  simp only [immOkU, decide_eq_true_eq]
  rw [BitVec.toNat_append]
  simp only [Nat.shiftLeft_eq, BitVec.toNat_ofNat, Nat.zero_mod, Nat.or_zero]
  omega

end Sys2Proof
end

