-- ==== Sys2Proof/Laws/Lanes.lean ====
section
/-! SUPPORT. The lane operations of the packed instructions: taking apart what `pack16` put together, the exact values of
the lane functions, and the bits of a reversed word (R15, R150, R151, R158). -/

namespace Sys2Proof.Machine

@[simp] theorem h0_pack16 (l0 l1 : Half) : h0 (pack16 l0 l1) = l0 := by
  apply BitVec.eq_of_getLsbD_eq
  intro k hk
  simp only [h0, pack16, BitVec.getLsbD_extractLsb', BitVec.getLsbD_append]
  simp [hk]

@[simp] theorem h1_pack16 (l0 l1 : Half) : h1 (pack16 l0 l1) = l1 := by
  apply BitVec.eq_of_getLsbD_eq
  intro k hk
  simp only [h1, pack16, BitVec.getLsbD_extractLsb', BitVec.getLsbD_append]
  simp [hk]

/-- A two-lane operation, lane by lane (R150). -/
@[simp] theorem h0_lanes16 (f : Half → Half → Half) (a b : Word) : h0 (lanes16 f a b) = f (h0 a) (h0 b) :=
  h0_pack16 ..

@[simp] theorem h1_lanes16 (f : Half → Half → Half) (a b : Word) : h1 (lanes16 f a b) = f (h1 a) (h1 b) :=
  h1_pack16 ..

/-- The low 16 bits of the exact product (R152). -/
theorem toNat_mulLane (a b : Half) : ((mulLane a b).toNat : Int) = (a.toInt * b.toInt) % 65536 := by
  unfold mulLane; rw [BitVec.toNat_ofInt]; omega

/-- The shift amount is the register modulo 16 (R155). -/
theorem toNat_sraAmount (v : Word) : (sraAmount v).toNat = v.toNat % 16 := by simp [sraAmount]

/-- An arithmetic right shift divides the signed value, rounding toward minus infinity (R155). -/
theorem toInt_sraLane (sh : BitVec 4) (a : Half) : (sraLane sh a).toInt = a.toInt / (2 ^ sh.toNat : Nat) := by
  unfold sraLane; rw [BitVec.toInt_sshiftRight, Int.shiftRight_eq_div_pow]

/-- One bit of a word, moved to bit `n`. -/
theorem getLsbD_movedBit (v : Word) (m n k : Nat) (hk : k < 32) :
    (((v >>> m) &&& 1) <<< n).getLsbD k = (decide (k = n) && v.getLsbD m) := by
  simp only [BitVec.getLsbD_shiftLeft, BitVec.getLsbD_and, BitVec.getLsbD_ushiftRight]
  rcases Nat.lt_trichotomy k n with h | h | h
  · simp [h]; omega
  · subst h; simp [hk]
  · have : k - n ≠ 0 := by omega
    simp [this]; omega

/-- Bit `k` of a word reversed as far as bit `n` (R158). -/
theorem getLsbD_reverseLow (v : Word) (n k : Nat) (hk : k < 32) :
    (reverseLow v n).getLsbD k = (decide (k < n) && v.getLsbD (31 - k)) := by
  induction n with
  | zero => simp [reverseLow]
  | succ n ih =>
    rw [reverseLow, BitVec.getLsbD_or, ih, getLsbD_movedBit v _ n k hk]
    rcases Nat.lt_trichotomy k n with h | h | h
    · have : k ≠ n := by omega
      simp [h, this]; omega
    · subst h; simp
    · have h1 : ¬ k < n := by omega
      have h2 : k ≠ n := by omega
      simp [h1, h2]; omega

/-- Bit `k` of a reversed word (R158). -/
theorem getLsbD_reverseBits (v : Word) (k : Nat) (hk : k < 32) : (reverseBits v).getLsbD k = v.getLsbD (31 - k) := by
  rw [reverseBits, getLsbD_reverseLow v 32 k hk, decide_eq_true hk, Bool.true_and]

end Sys2Proof.Machine
end

