-- ==== Sys2Proof/Laws/Memory.lean ====
section
/-! SUPPORT. The laws of memory: reading after writing, byte and word; every memory operation keeps the canonical form
and adds no cell outside what it writes. -/

namespace Sys2Proof.Machine

@[simp] theorem Memory.read_nil (a : Nat) : Memory.read [] a = 0 := rfl

theorem Memory.read_erase (m : Memory) (a c : Nat) :
    Memory.read (Memory.erase m a) c = if c = a then 0 else Memory.read m c := by
  induction m with
  | nil => simp [Memory.erase]
  | cons d m ih =>
    simp only [Memory.erase, List.filter_cons] at ih ⊢
    by_cases hd : d.1 = a
    · simp only [hd, bne_self_eq_false, Bool.false_eq_true, if_false, ih, Memory.read]
      grind
    · simp only [bne_iff_ne, ne_eq, hd, not_false_eq_true, if_true, Memory.read, ih]
      grind

theorem Memory.read_insert (m : Memory) (a c : Nat) (b : Byte) (h : ∀ d ∈ m, d.1 ≠ a) :
    Memory.read (Memory.insert m a b) c = if c = a then b else Memory.read m c := by
  induction m with
  | nil => simp [Memory.insert, Memory.read, Memory.unlisted, eq_comm]
  | cons d m ih =>
    have ih := ih fun e he => h e (List.mem_cons_of_mem _ he)
    have hd := h d List.mem_cons_self
    simp only [Memory.insert]
    split
    · simp [Memory.read, eq_comm]
    · simp only [Memory.read, ih]
      grind

theorem Memory.mem_erase {m : Memory} {a : Nat} {c : Host.Cell} : c ∈ Memory.erase m a ↔ c ∈ m ∧ c.1 ≠ a := by
  simp [Memory.erase]

theorem Memory.mem_insert {m : Memory} {a : Nat} {b : Byte} {c : Host.Cell} :
    c ∈ Memory.insert m a b ↔ c = (a, b) ∨ c ∈ m := by
  induction m with
  | nil => simp [Memory.insert]
  | cons d m ih =>
    simp only [Memory.insert]
    split <;> simp [ih]
    grind

/-- A read after a write gives the written value at its address, and leaves every other address alone. -/
theorem Memory.read_write (m : Memory) (a c : Nat) (b : Byte) :
    Memory.read (Memory.write m a b) c = if c = a then b else Memory.read m c := by
  unfold Memory.write
  split
  · rename_i hb; rw [Memory.read_erase, hb]; rfl
  · rw [Memory.read_insert _ _ _ _ fun d hd => (Memory.mem_erase.1 hd).2, Memory.read_erase]
    grind

/-- A write adds no cell but its own. -/
theorem Memory.mem_write {m : Memory} {a : Nat} {b : Byte} {c : Host.Cell} (h : c ∈ Memory.write m a b) :
    c ∈ m ∨ c = (a, b) := by
  unfold Memory.write at h
  split at h
  · exact .inl (Memory.mem_erase.1 h).1
  · rcases Memory.mem_insert.1 h with h | h
    · exact .inr h
    · exact .inl (Memory.mem_erase.1 h).1

/-! ### The canonical form -/

theorem Memory.wf_iff (m : Memory) :
    Memory.wf m = true ↔ m.Pairwise (fun c d => c.1 < d.1) ∧ ∀ c ∈ m, c.2 ≠ Memory.unlisted := by
  simp [Memory.wf]

theorem Memory.wf_nil : Memory.wf [] = true := by decide

theorem Memory.insert_pairwise {m : Memory} {a : Nat} {b : Byte} (hm : m.Pairwise fun c d => c.1 < d.1)
    (ha : ∀ c ∈ m, c.1 ≠ a) : (Memory.insert m a b).Pairwise fun c d => c.1 < d.1 := by
  induction m with
  | nil => simp [Memory.insert]
  | cons d m ih =>
    obtain ⟨hd, hm'⟩ := List.pairwise_cons.1 hm
    simp only [Memory.insert]
    split
    · rename_i hlt
      refine List.pairwise_cons.2 ⟨fun c hc => ?_, hm⟩
      rcases List.mem_cons.1 hc with rfl | hc
      · exact hlt
      · exact Nat.lt_trans hlt (hd c hc)
    · rename_i hge
      have hda := ha d List.mem_cons_self
      refine List.pairwise_cons.2 ⟨fun c hc => ?_, ih hm' fun c hc => ha c (List.mem_cons_of_mem _ hc)⟩
      rcases Memory.mem_insert.1 hc with rfl | hc
      · exact Nat.lt_of_le_of_ne (Nat.not_lt.1 hge) hda
      · exact hd c hc

/-- A write keeps the canonical form. -/
theorem Memory.write_wf {m : Memory} (h : Memory.wf m = true) (a : Nat) (b : Byte) :
    Memory.wf (Memory.write m a b) = true := by
  rw [Memory.wf_iff] at h ⊢
  have he : (Memory.erase m a).Pairwise fun c d => c.1 < d.1 := h.1.filter _
  unfold Memory.write
  split
  · exact ⟨he, fun c hc => h.2 c (Memory.mem_erase.1 hc).1⟩
  · rename_i hb
    refine ⟨Memory.insert_pairwise he fun c hc => (Memory.mem_erase.1 hc).2, fun c hc => ?_⟩
    rcases Memory.mem_insert.1 hc with rfl | hc
    · exact hb
    · exact h.2 c (Memory.mem_erase.1 hc).1

theorem Memory.writeBytes_wf {m : Memory} (h : Memory.wf m = true) (a : Nat) (bs : List Byte) :
    Memory.wf (Memory.writeBytes m a bs) = true := by
  induction bs generalizing m a with
  | nil => exact h
  | cons b bs ih => exact ih (Memory.write_wf h a b) (a + 1)

theorem Memory.write32_wf {m : Memory} (h : Memory.wf m = true) (a : Nat) (v : Word) :
    Memory.wf (Memory.write32 m a v) = true := Memory.writeBytes_wf h a _

/-! ### Consecutive bytes and words -/

/-- Reading after writing consecutive bytes. -/
theorem Memory.read_writeBytes (m : Memory) (a c : Nat) (bs : List Byte) :
    Memory.read (Memory.writeBytes m a bs) c =
      if a ≤ c ∧ c < a + bs.length then bs.getD (c - a) 0 else Memory.read m c := by
  induction bs generalizing m a with
  | nil => rw [if_neg (by simp)]; rfl
  | cons b bs ih =>
    rw [Memory.writeBytes, ih, Memory.read_write]
    by_cases h1 : a + 1 ≤ c ∧ c < a + 1 + bs.length
    · have h2 : a ≤ c ∧ c < a + (b :: bs).length := by simp; omega
      obtain ⟨k, hk⟩ : ∃ k, c = a + 1 + k := ⟨c - (a + 1), by omega⟩
      rw [if_pos h1, if_pos h2]
      have : c - a = k + 1 := by omega
      have h3 : c - (a + 1) = k := by omega
      simp [this, h3]
    · rw [if_neg h1]
      by_cases h3 : c = a
      · subst h3; simp
      · have h2 : ¬(a ≤ c ∧ c < a + (b :: bs).length) := by simp; omega
        rw [if_neg h3, if_neg h2]

/-- Writing consecutive bytes adds no cell outside their addresses. -/
theorem Memory.mem_writeBytes {m : Memory} {a : Nat} {bs : List Byte} {c : Host.Cell}
    (h : c ∈ Memory.writeBytes m a bs) : c ∈ m ∨ a ≤ c.1 ∧ c.1 < a + bs.length := by
  induction bs generalizing m a with
  | nil => exact .inl h
  | cons b bs ih =>
    rcases ih h with h | h
    · rcases Memory.mem_write h with h | rfl
      · exact .inl h
      · right; simp
    · right; simp; omega

@[simp] theorem length_leBytes (v : Word) : (leBytes v).length = 4 := rfl

theorem getD_leBytes (v : Word) (k : Nat) (h : k < 4) : (leBytes v).getD k 0 = leByte v k := by
  match k, h with
  | 0, _ => rfl
  | 1, _ => rfl
  | 2, _ => rfl
  | 3, _ => rfl

/-- A byte after a word write: the word's own byte inside it, the old byte outside it (R13). -/
theorem Memory.read_write32 (m : Memory) (a c : Nat) (v : Word) :
    Memory.read (Memory.write32 m a v) c =
      if a ≤ c ∧ c < a + 4 then leByte v (c - a) else Memory.read m c := by
  rw [Memory.write32, Memory.read_writeBytes]
  split <;> rename_i h
  · rw [length_leBytes] at h
    rw [if_pos h, getD_leBytes _ _ (by omega)]
  · rw [length_leBytes] at h
    rw [if_neg h]

theorem Memory.mem_write32 {m : Memory} {a : Nat} {v : Word} {c : Host.Cell} (h : c ∈ Memory.write32 m a v) :
    c ∈ m ∨ a ≤ c.1 ∧ c.1 < a + 4 := by
  simpa using Memory.mem_writeBytes h

/-- Byte `k` of a word made of four bytes is the `k`-th of them. -/
theorem leByte_leWord (b0 b1 b2 b3 : Byte) :
    leByte (leWord b0 b1 b2 b3) 0 = b0 ∧ leByte (leWord b0 b1 b2 b3) 1 = b1 ∧
    leByte (leWord b0 b1 b2 b3) 2 = b2 ∧ leByte (leWord b0 b1 b2 b3) 3 = b3 := by
  refine ⟨?_, ?_, ?_, ?_⟩ <;>
  · apply BitVec.eq_of_getLsbD_eq
    intro i hi
    simp only [leByte, leWord, BitVec.getLsbD_extractLsb', BitVec.getLsbD_append, hi, decide_true, Bool.true_and]
    grind

/-- A word is made of its own four bytes. -/
theorem leWord_leByte (v : Word) : leWord (leByte v 0) (leByte v 1) (leByte v 2) (leByte v 3) = v := by
  apply BitVec.eq_of_getLsbD_eq
  intro i hi
  simp only [leByte, leWord, BitVec.getLsbD_extractLsb', BitVec.getLsbD_append]
  grind

/-- Byte `k` of a word read is the byte at its address plus `k` (R13, R51). -/
theorem Memory.leByte_read32 (m : Memory) (a k : Nat) (h : k < 4) :
    leByte (Memory.read32 m a) k = Memory.read m (a + k) := by
  have := leByte_leWord (Memory.read m a) (Memory.read m (a + 1)) (Memory.read m (a + 2)) (Memory.read m (a + 3))
  match k, h with
  | 0, _ => exact this.1
  | 1, _ => exact this.2.1
  | 2, _ => exact this.2.2.1
  | 3, _ => exact this.2.2.2

end Sys2Proof.Machine
end

