-- ==== Sys2Proof/Laws/State.lean ====
section
/-! SUPPORT. One lemma per field of State per update, so that no later proof unfolds a record update or an operation
that makes one; the two register laws; when a word access or a fetch answers. -/

namespace Sys2Proof.Machine

/-! ### Registers -/

@[simp] theorem State.readReg_zero (s : State) : s.readReg 0#5 = 0#32 := rfl

@[simp] theorem State.writeReg_zero (s : State) (v : Word) : s.writeReg 0#5 v = s := rfl

@[simp] theorem State.writeReg_cfg (s : State) (r : RegIdx) (v : Word) : (s.writeReg r v).cfg = s.cfg := by
  unfold State.writeReg; split <;> rfl

@[simp] theorem State.writeReg_pc (s : State) (r : RegIdx) (v : Word) : (s.writeReg r v).pc = s.pc := by
  unfold State.writeReg; split <;> rfl

@[simp] theorem State.writeReg_mem (s : State) (r : RegIdx) (v : Word) : (s.writeReg r v).mem = s.mem := by
  unfold State.writeReg; split <;> rfl

@[simp] theorem State.writeReg_run (s : State) (r : RegIdx) (v : Word) : (s.writeReg r v).run = s.run := by
  unfold State.writeReg; split <;> rfl

@[simp] theorem State.writeReg_diags (s : State) (r : RegIdx) (v : Word) : (s.writeReg r v).diags = s.diags := by
  unfold State.writeReg; split <;> rfl

/-- Slot 0 of the register vector is never written. -/
@[simp] theorem State.writeReg_regs_zero (s : State) (r : RegIdx) (v : Word) :
    (s.writeReg r v).regs[0] = s.regs[0] := by
  unfold State.writeReg
  split
  · rfl
  · rename_i h
    have h0 : r.toNat ≠ 0 := fun h' => h (BitVec.eq_of_toNat_eq h')
    exact Vector.getElem_set_ne r.isLt _ h0

theorem State.readReg_of_ne (s : State) {r : RegIdx} (h : r ≠ 0) : s.readReg r = s.regs[r.toNat]'r.isLt := if_neg h

theorem State.writeReg_of_ne (s : State) {r : RegIdx} (h : r ≠ 0) (v : Word) :
    s.writeReg r v = { s with regs := s.regs.set r.toNat v r.isLt } := if_neg h

/-- Reading a register after a write: the written value, unless x0 is read or written (R12, R21). -/
theorem State.readReg_writeReg (s : State) (r q : RegIdx) (v : Word) :
    (s.writeReg r v).readReg q = if q = r ∧ r ≠ 0 then v else s.readReg q := by
  by_cases hr : r = 0
  · subst hr; simp
  by_cases hq : q = 0
  · subst hq
    rw [if_neg fun h => h.2 h.1.symm]; rfl
  rw [State.writeReg_of_ne s hr, State.readReg_of_ne _ hq, State.readReg_of_ne _ hq]
  by_cases hqr : q = r
  · subst hqr
    rw [if_pos ⟨rfl, hq⟩]
    exact Vector.getElem_set_self _
  · rw [if_neg fun h => hqr h.1]
    exact Vector.getElem_set_ne r.isLt _ fun h => hqr (BitVec.eq_of_toNat_eq h.symm)

/-- Two states with the same register vector read alike. -/
theorem State.readReg_congr {s t : State} (h : t.regs = s.regs) (r : RegIdx) : t.readReg r = s.readReg r := by
  unfold State.readReg; rw [h]

/-! ### The control effect -/

@[simp] theorem State.applyEffect_cfg (s : State) (e : ControlEffect) : (s.applyEffect e).cfg = s.cfg := by cases e <;> rfl
@[simp] theorem State.applyEffect_regs (s : State) (e : ControlEffect) : (s.applyEffect e).regs = s.regs := by cases e <;> rfl
@[simp] theorem State.applyEffect_mem (s : State) (e : ControlEffect) : (s.applyEffect e).mem = s.mem := by cases e <;> rfl
@[simp] theorem State.applyEffect_run (s : State) (e : ControlEffect) : (s.applyEffect e).run = s.run := by cases e <;> rfl
@[simp] theorem State.applyEffect_diags (s : State) (e : ControlEffect) : (s.applyEffect e).diags = s.diags := by cases e <;> rfl
@[simp] theorem State.applyEffect_continue_pc (s : State) : (s.applyEffect .continue).pc = s.pc + 4 := rfl
@[simp] theorem State.applyEffect_redirect_pc (s : State) (a : Word) : (s.applyEffect (.redirect a)).pc = a := rfl

@[simp] theorem State.readReg_applyEffect (s : State) (e : ControlEffect) (r : RegIdx) :
    (s.applyEffect e).readReg r = s.readReg r := State.readReg_congr (by simp) r

/-! ### The diagnostic and the placed word -/

@[simp] theorem State.emitDiag_cfg (s : State) (w : Word) : (s.emitDiag w).cfg = s.cfg := rfl
@[simp] theorem State.emitDiag_regs (s : State) (w : Word) : (s.emitDiag w).regs = s.regs := rfl
@[simp] theorem State.emitDiag_pc (s : State) (w : Word) : (s.emitDiag w).pc = s.pc := rfl
@[simp] theorem State.emitDiag_mem (s : State) (w : Word) : (s.emitDiag w).mem = s.mem := rfl
@[simp] theorem State.emitDiag_run (s : State) (w : Word) : (s.emitDiag w).run = s.run := rfl
@[simp] theorem State.emitDiag_diags (s : State) (w : Word) :
    (s.emitDiag w).diags = s.diags ++ [{ raw := w, pc := s.pc }] := rfl

@[simp] theorem State.placeWord_cfg (s : State) (w : Word) : (s.placeWord w).cfg = s.cfg := rfl
@[simp] theorem State.placeWord_regs (s : State) (w : Word) : (s.placeWord w).regs = s.regs := rfl
@[simp] theorem State.placeWord_pc (s : State) (w : Word) : (s.placeWord w).pc = s.pc := rfl
@[simp] theorem State.placeWord_run (s : State) (w : Word) : (s.placeWord w).run = s.run := rfl
@[simp] theorem State.placeWord_diags (s : State) (w : Word) : (s.placeWord w).diags = s.diags := rfl
@[simp] theorem State.placeWord_mem (s : State) (w : Word) :
    (s.placeWord w).mem = s.mem.write32 s.pc.toNat w := rfl

/-! ### Reset -/

@[simp] theorem State.resetWith_cfg (c : Config) : (State.resetWith c).cfg = c := rfl
@[simp] theorem State.resetWith_pc (c : Config) : (State.resetWith c).pc = 0 := rfl
@[simp] theorem State.resetWith_mem (c : Config) : (State.resetWith c).mem = [] := rfl
@[simp] theorem State.resetWith_run (c : Config) : (State.resetWith c).run = .running := rfl
@[simp] theorem State.resetWith_diags (c : Config) : (State.resetWith c).diags = [] := rfl

/-! ### When an access answers -/

theorem inBounds_iff (cfg : Config) (a : Word) : inBounds cfg a = true ↔ a.toNat + 4 ≤ cfg.memSize := by
  simp [inBounds]

theorem State.loadWord_eq_some {s : State} {a v : Word} :
    s.loadWord a = some v ↔ a.toNat + 4 ≤ s.cfg.memSize ∧ v = s.mem.read32 a.toNat := by
  unfold State.loadWord
  split
  · rename_i h; simp [(inBounds_iff _ _).1 h, eq_comm]
  · rename_i h; simp [inBounds_iff] at h; simp; omega

theorem State.loadWord_eq_none {s : State} {a : Word} :
    s.loadWord a = none ↔ s.cfg.memSize < a.toNat + 4 := by
  simp [State.loadWord, inBounds]

theorem State.storeWord_eq_some {s t : State} {a v : Word} :
    s.storeWord a v = some t ↔ a.toNat + 4 ≤ s.cfg.memSize ∧ t = { s with mem := s.mem.write32 a.toNat v } := by
  unfold State.storeWord
  split
  · rename_i h; simp [(inBounds_iff _ _).1 h, eq_comm]
  · rename_i h; simp [inBounds_iff] at h; simp; omega

theorem State.storeWord_eq_none {s : State} {a v : Word} :
    s.storeWord a v = none ↔ s.cfg.memSize < a.toNat + 4 := by
  simp [State.storeWord, inBounds]

/-- Everything a fetch that answers a word says of the state (R172). -/
theorem State.fetch_eq_ok {s : State} {w : Word} :
    s.fetch = .ok w ↔ s.pc.toNat + 4 ≤ s.cfg.memSize ∧
      (s.pc.toNat % 4 = 0 ∨ s.cfg.misalignedPcPolicy = .fetchUnaligned) ∧ w = s.mem.read32 s.pc.toNat := by
  unfold State.fetch
  cases hp : s.cfg.misalignedPcPolicy <;> split_ifs <;> simp_all <;> first | omega | (constructor <;> intro h <;> simp_all)

/-- Everything a fetch that halts says of the state: the bound first, then the alignment (R172, R193). -/
theorem State.fetch_eq_error {s : State} {reason : HaltReason} :
    s.fetch = .error reason ↔
      (s.cfg.memSize < s.pc.toNat + 4 ∧ reason = .fetchOutOfRange s.pc) ∨
      (s.pc.toNat + 4 ≤ s.cfg.memSize ∧ s.pc.toNat % 4 ≠ 0 ∧ s.cfg.misalignedPcPolicy = .halt ∧
        reason = .misalignedPc s.pc) := by
  unfold State.fetch
  split_ifs with h1 h2
  · simp [h1, eq_comm, Nat.not_le.2 h1]
  · simp [h1, h2, eq_comm, Nat.not_lt.1 h1]
  · simp [h1]; intro _ h3 h4; exact absurd ⟨h3, h4⟩ h2

/-- A fetch looks at the parameters, the pc and memory only. -/
theorem State.fetch_congr {s t : State} (hc : t.cfg = s.cfg) (hp : t.pc = s.pc) (hm : t.mem = s.mem) :
    t.fetch = s.fetch := by
  unfold State.fetch; rw [hc, hp, hm]

end Sys2Proof.Machine
end

