-- ==== Sys2Proof/Laws/Ops.lean ====
section
/-! SUPPORT. Once for each shared operation and for the step: everything it can do. Proofs about instructions cite these
and do not unfold the meanings. -/

namespace Sys2Proof.Machine

/-! ### The shared endings of an instruction -/

/-- `retire` always answers the state with the one register written and the pc advanced. -/
theorem State.retire_eq (s : State) (rd : RegIdx) (v : Word) :
    s.retire rd v = .next ((s.writeReg rd v).applyEffect .continue) := rfl

/-- A halt answers the same state with `run` written (R194). -/
theorem State.raiseHalt_eq (s : State) (reason : HaltReason) :
    s.raiseHalt reason = .next { s with run := .halted reason } := rfl

/-- What reading any register gives after `retire`. -/
theorem State.readReg_retire {s t : State} {rd : RegIdx} {v : Word} (h : s.retire rd v = .next t) (q : RegIdx) :
    t.readReg q = if q = rd ∧ rd ≠ 0 then v else s.readReg q := by
  rw [State.retire_eq] at h
  cases h
  rw [State.readReg_applyEffect, State.readReg_writeReg]

/-! ### lw and sw, in and out of bounds -/

theorem execLw_of_inBounds {s : State} {rd rs1 : RegIdx} {imm : Word}
    (h : (s.effAddr rs1 imm).toNat + 4 ≤ s.cfg.memSize) :
    execLw rd rs1 imm s = s.retire rd (s.mem.read32 (s.effAddr rs1 imm).toNat) := by
  unfold execLw; rw [State.loadWord_eq_some.2 ⟨h, rfl⟩]

theorem execLw_of_outOfBounds {s : State} {rd rs1 : RegIdx} {imm : Word}
    (h : s.cfg.memSize < (s.effAddr rs1 imm).toNat + 4) :
    execLw rd rs1 imm s = s.raiseHalt (.dataOutOfBounds (s.effAddr rs1 imm)) := by
  unfold execLw; rw [State.loadWord_eq_none.2 h]

theorem execSw_of_inBounds {s : State} {rs1 rs2 : RegIdx} {imm : Word}
    (h : (s.effAddr rs1 imm).toNat + 4 ≤ s.cfg.memSize) :
    execSw rs1 rs2 imm s =
      .next { s with mem := s.mem.write32 (s.effAddr rs1 imm).toNat (s.readReg rs2), pc := s.pc + 4 } := by
  unfold execSw; rw [State.storeWord_eq_some.2 ⟨h, rfl⟩]; rfl

theorem execSw_of_outOfBounds {s : State} {rs1 rs2 : RegIdx} {imm : Word}
    (h : s.cfg.memSize < (s.effAddr rs1 imm).toNat + 4) :
    execSw rs1 rs2 imm s = s.raiseHalt (.dataOutOfBounds (s.effAddr rs1 imm)) := by
  unfold execSw; rw [State.storeWord_eq_none.2 h]

/-! ### Every instruction, every step -/

/-- The control effect of each instruction that does not halt (R170). -/
def effectOf (i : Instr) (s : State) : ControlEffect :=
  match i with
  | .beq rs1 rs2 imm => s.branchEffect (s.condEq rs1 rs2) imm
  | .bne rs1 rs2 imm => s.branchEffect (s.condNe rs1 rs2) imm
  | .jal _ imm => .redirect (s.target imm)
  | _ => .continue

/-- Every instruction answers a next state, in one of three ways: it writes at most one register and applies its
control effect; it is a store in bounds; it is a load or store that halts out of bounds. -/
theorem exec_cases (i : Instr) (s : State) :
    (∃ rd v, exec i s = .next ((s.writeReg rd v).applyEffect (effectOf i s))) ∨
    (∃ rs1 rs2 imm, i = .sw rs1 rs2 imm ∧ (s.effAddr rs1 imm).toNat + 4 ≤ s.cfg.memSize ∧
      exec i s =
        .next { s with mem := s.mem.write32 (s.effAddr rs1 imm).toNat (s.readReg rs2), pc := s.pc + 4 }) ∨
    (∃ rs1 imm, ((∃ rd, i = .lw rd rs1 imm) ∨ (∃ rs2, i = .sw rs1 rs2 imm)) ∧
      s.cfg.memSize < (s.effAddr rs1 imm).toNat + 4 ∧
      exec i s = .next { s with run := .halted (.dataOutOfBounds (s.effAddr rs1 imm)) }) := by
  cases i with
  | lw rd rs1 imm =>
    by_cases h : (s.effAddr rs1 imm).toNat + 4 ≤ s.cfg.memSize
    · exact .inl ⟨rd, _, execLw_of_inBounds h⟩
    · exact .inr (.inr ⟨rs1, imm, .inl ⟨rd, rfl⟩, Nat.not_le.1 h, execLw_of_outOfBounds (Nat.not_le.1 h)⟩)
  | sw rs1 rs2 imm =>
    by_cases h : (s.effAddr rs1 imm).toNat + 4 ≤ s.cfg.memSize
    · exact .inr (.inl ⟨rs1, rs2, imm, rfl, h, execSw_of_inBounds h⟩)
    · exact .inr (.inr ⟨rs1, imm, .inr ⟨rs2, rfl⟩, Nat.not_le.1 h, execSw_of_outOfBounds (Nat.not_le.1 h)⟩)
  | beq rs1 rs2 imm => exact .inl ⟨0, 0, rfl⟩
  | bne rs1 rs2 imm => exact .inl ⟨0, 0, rfl⟩
  | jal rd imm => exact .inl ⟨rd, s.nextPc, rfl⟩
  | add rd | sub rd | or rd | and rd | pmul16 rd | padd16s rd | psub16 rd | psra16 rd | pack8 rd | addi rd
  | xori rd | lui rd | pmac8 rd | bitrev rd => exact .inl ⟨rd, _, rfl⟩

/-- What executing an `Unknown` answers under each policy (R171). -/
theorem execUnknown_cases (raw : Word) (s : State) :
    (s.cfg.unknownPolicy = .halt ∧
      execUnknown raw s = .next { s.emitDiag raw with run := .halted (.unknownInstruction raw) }) ∨
    (s.cfg.unknownPolicy = .continue ∧ execUnknown raw s = .next { s.emitDiag raw with pc := s.pc + 4 }) := by
  unfold execUnknown
  cases h : s.cfg.unknownPolicy
  · exact .inl ⟨rfl, rfl⟩
  · exact .inr ⟨rfl, rfl⟩

/-- A step that answers ran on a running machine: its fetch halted, or the fetched word was executed (R172). -/
theorem step_cases {s t : State} (h : step s = .next t) :
    s.run = .running ∧
    ((∃ reason, s.fetch = .error reason ∧ t = { s with run := .halted reason }) ∨
     (∃ w, s.fetch = .ok w ∧
       ((∃ i, decode s.cfg w = .instr i ∧ exec i s = .next t) ∨
        (∃ raw, decode s.cfg w = .unknown raw ∧ execUnknown raw s = .next t)))) := by
  unfold step at h
  cases hr : s.run with
  | halted reason => rw [hr] at h; cases h
  | running =>
    refine ⟨rfl, ?_⟩
    rw [hr] at h
    simp only at h
    cases hf : s.fetch with
    | error reason =>
      rw [hf] at h
      exact .inl ⟨reason, rfl, by cases h; rfl⟩
    | ok w =>
      rw [hf] at h
      refine .inr ⟨w, rfl, ?_⟩
      cases hd : decode s.cfg w with
      | instr i => simp only [hd] at h; exact .inl ⟨i, rfl, h⟩
      | unknown raw => simp only [hd] at h; exact .inr ⟨raw, rfl, h⟩

/-- A running machine whose fetched word decodes to an instruction. -/
theorem step_of_instr {s : State} {w : Word} {i : Instr} (hr : s.run = .running) (hf : s.fetch = .ok w)
    (hd : decode s.cfg w = .instr i) : step s = exec i s := by
  unfold step; simp only [hr, hf, hd]

/-- A running machine whose fetched word decodes to `Unknown`. -/
theorem step_of_unknown {s : State} {w raw : Word} (hr : s.run = .running) (hf : s.fetch = .ok w)
    (hd : decode s.cfg w = .unknown raw) : step s = execUnknown raw s := by
  unfold step; simp only [hr, hf, hd]

/-- A running machine whose fetch halts. -/
theorem step_of_fetch_error {s : State} {reason : HaltReason} (hr : s.run = .running)
    (hf : s.fetch = .error reason) : step s = .next { s with run := .halted reason } := by
  unfold step; simp only [hr, hf]; rfl

/-! ### Runs -/

@[simp] theorem run_zero (s : State) : Sys2Proof.core.run 0 s = .next s := rfl

theorem run_unfold (M : Host.Core) (n : Nat) (s : M.State) :
    M.run (n + 1) s = (M.step s).casesOn (fun u => M.run n u) (fun r => .fault r) (fun r => .refused r) := by
  rw [Host.Core.run]; cases M.step s <;> rfl

/-- A run of `n + 1` steps is a step and then a run of `n` steps, and ends where a step answers no next state. -/
theorem run_succ (n : Nat) (s : State) :
    Sys2Proof.core.run (n + 1) s = match step s with
      | .next u => Sys2Proof.core.run n u
      | .fault r => .fault r
      | .refused r => .refused r := by
  refine (run_unfold Sys2Proof.core n s).trans ?_
  change Host.Outcome.casesOn (motive := fun _ => Host.Outcome State Fault Refusal) (step s) _ _ _ = _
  cases step s <;> rfl

theorem run_succ_of_next {n : Nat} {s u : State} (h : step s = .next u) :
    Sys2Proof.core.run (n + 1) s = Sys2Proof.core.run n u := by
  rw [run_succ, h]

/-- A run that answers a state after `n + 1` steps took a first step that did. -/
theorem run_succ_eq_next {n : Nat} {s t : State} (h : Sys2Proof.core.run (n + 1) s = .next t) :
    ∃ u, step s = .next u ∧ Sys2Proof.core.run n u = .next t := by
  rw [run_succ] at h
  cases hs : step s with
  | next u => rw [hs] at h; exact ⟨u, rfl, h⟩
  | fault r => rw [hs] at h; cases h
  | refused r => rw [hs] at h; cases h

end Sys2Proof.Machine
end

