-- ==== Sys2Proof/Laws/PerInstr.lean ====
section
/-! SUPPORT. The per-instruction family EncodeFields: the selector and operand fields that the decoder extracts from the
encoded word of a well-formed instruction are the ones R80 gives its row and the instruction carries. -/

namespace Sys2Proof.Laws.EncodeFields

/-- A word with these R-format fields (R72). -/
def IsR (w : Word) (f7 : BitVec 7) (rs2 rs1 : RegIdx) (f3 : BitVec 3) (rd : RegIdx) (op : BitVec 7) : Prop :=
  opcodeOf w = op ∧ rdOf w = rd ∧ funct3Of w = f3 ∧ rs1Of w = rs1 ∧ rs2Of w = rs2 ∧ funct7Of w = f7

/-- A word with these I-format fields (R72, R74). -/
def IsI (w imm : Word) (rs1 : RegIdx) (f3 : BitVec 3) (rd : RegIdx) (op : BitVec 7) : Prop :=
  opcodeOf w = op ∧ rdOf w = rd ∧ funct3Of w = f3 ∧ rs1Of w = rs1 ∧ immI w = imm

/-- A word with these S-format fields (R72, R75). -/
def IsS (w imm : Word) (rs2 rs1 : RegIdx) (f3 : BitVec 3) (op : BitVec 7) : Prop :=
  opcodeOf w = op ∧ funct3Of w = f3 ∧ rs1Of w = rs1 ∧ rs2Of w = rs2 ∧ immS w = imm

/-- A word with these B-format fields (R72, R76). -/
def IsB (w imm : Word) (rs2 rs1 : RegIdx) (f3 : BitVec 3) (op : BitVec 7) : Prop :=
  opcodeOf w = op ∧ funct3Of w = f3 ∧ rs1Of w = rs1 ∧ rs2Of w = rs2 ∧ immB w = imm

/-- A word with these U-format fields (R72, R77). -/
def IsU (w imm : Word) (rd : RegIdx) (op : BitVec 7) : Prop := opcodeOf w = op ∧ rdOf w = rd ∧ immU w = imm

/-- A word with these J-format fields (R72, R78). -/
def IsJ (w imm : Word) (rd : RegIdx) (op : BitVec 7) : Prop := opcodeOf w = op ∧ rdOf w = rd ∧ immJ w = imm

theorem isI {imm : Word} (h : immOk12 imm = true) (rs1 : RegIdx) (f3 : BitVec 3) (rd : RegIdx) (op : BitVec 7) :
    IsI (encI imm rs1 f3 rd op) imm rs1 f3 rd op := by
  have := encI_fields op rs1 rd f3 imm
  rwa [sext_low12 h] at this

theorem isS {imm : Word} (h : immOk12 imm = true) (rs2 rs1 : RegIdx) (f3 : BitVec 3) (op : BitVec 7) :
    IsS (encS imm rs2 rs1 f3 op) imm rs2 rs1 f3 op := by
  have := encS_fields op rs2 rs1 f3 imm
  rwa [sext_low12 h] at this

theorem isB {imm : Word} (h : immOkB imm = true) (rs2 rs1 : RegIdx) (f3 : BitVec 3) (op : BitVec 7) :
    IsB (encB imm rs2 rs1 f3 op) imm rs2 rs1 f3 op := by
  have := encB_fields op rs2 rs1 f3 imm
  rwa [sext_low13 h] at this

theorem isU {imm : Word} (h : immOkU imm = true) (rd : RegIdx) (op : BitVec 7) : IsU (encU imm rd op) imm rd op := by
  have := encU_fields op rd imm
  rwa [upper20 h] at this

theorem isJ {imm : Word} (h : immOkJ imm = true) (rd : RegIdx) (op : BitVec 7) : IsJ (encJ imm rd op) imm rd op := by
  have := encJ_fields op rd imm
  rwa [sext_low21 h] at this

/-- The fields of the encoded word of a well-formed instruction, for every setting of the parameters. -/
def Statement (i : Instr) : Prop := ∀ cfg : Config, i.wf = true → match i with
  | .add rd rs1 rs2 => IsR (encode cfg (.add rd rs1 rs2)) 0b0000000 rs2 rs1 0b000 rd 0b0110011
  | .sub rd rs1 rs2 => IsR (encode cfg (.sub rd rs1 rs2)) 0b0100000 rs2 rs1 0b000 rd 0b0110011
  | .or rd rs1 rs2 => IsR (encode cfg (.or rd rs1 rs2)) 0b0000000 rs2 rs1 0b110 rd 0b0110011
  | .and rd rs1 rs2 => IsR (encode cfg (.and rd rs1 rs2)) 0b0000000 rs2 rs1 0b111 rd 0b0110011
  | .pmul16 rd rs1 rs2 => IsR (encode cfg (.pmul16 rd rs1 rs2)) 0b0000001 rs2 rs1 cfg.packedF3.pmul16 rd 0b0110011
  | .padd16s rd rs1 rs2 => IsR (encode cfg (.padd16s rd rs1 rs2)) 0b0000001 rs2 rs1 cfg.packedF3.padd16s rd 0b0110011
  | .psub16 rd rs1 rs2 => IsR (encode cfg (.psub16 rd rs1 rs2)) 0b0000001 rs2 rs1 cfg.packedF3.psub16 rd 0b0110011
  | .psra16 rd rs1 rs2 => IsR (encode cfg (.psra16 rd rs1 rs2)) 0b0000001 rs2 rs1 cfg.packedF3.psra16 rd 0b0110011
  | .pack8 rd rs1 rs2 => IsR (encode cfg (.pack8 rd rs1 rs2)) 0b0000001 rs2 rs1 cfg.packedF3.pack8 rd 0b0110011
  | .addi rd rs1 imm => IsI (encode cfg (.addi rd rs1 imm)) imm rs1 0b000 rd 0b0010011
  | .xori rd rs1 imm => IsI (encode cfg (.xori rd rs1 imm)) imm rs1 0b100 rd 0b0010011
  | .lw rd rs1 imm => IsI (encode cfg (.lw rd rs1 imm)) imm rs1 0b010 rd 0b0000011
  | .lui rd imm => IsU (encode cfg (.lui rd imm)) imm rd 0b0110111
  | .sw rs1 rs2 imm => IsS (encode cfg (.sw rs1 rs2 imm)) imm rs2 rs1 0b010 0b0100011
  | .beq rs1 rs2 imm => IsB (encode cfg (.beq rs1 rs2 imm)) imm rs2 rs1 0b000 0b1100011
  | .bne rs1 rs2 imm => IsB (encode cfg (.bne rs1 rs2 imm)) imm rs2 rs1 0b001 0b1100011
  | .jal rd imm => IsJ (encode cfg (.jal rd imm)) imm rd 0b1101111
  | .pmac8 rd rs1 rs2 => IsR (encode cfg (.pmac8 rd rs1 rs2)) 0b0000000 rs2 rs1 cfg.custom0F3.pmac8 rd 0b0001011
  | .bitrev rd rs1 => IsR (encode cfg (.bitrev rd rs1)) 0b0000000 0 rs1 cfg.custom0F3.bitrev rd 0b0001011

theorem add (rd rs1 rs2 : RegIdx) : Statement (.add rd rs1 rs2) := fun _ _ => encR_fields ..

theorem sub (rd rs1 rs2 : RegIdx) : Statement (.sub rd rs1 rs2) := fun _ _ => encR_fields ..

theorem or (rd rs1 rs2 : RegIdx) : Statement (.or rd rs1 rs2) := fun _ _ => encR_fields ..

theorem and (rd rs1 rs2 : RegIdx) : Statement (.and rd rs1 rs2) := fun _ _ => encR_fields ..

theorem pmul16 (rd rs1 rs2 : RegIdx) : Statement (.pmul16 rd rs1 rs2) := fun _ _ => encR_fields ..

theorem padd16s (rd rs1 rs2 : RegIdx) : Statement (.padd16s rd rs1 rs2) := fun _ _ => encR_fields ..

theorem psub16 (rd rs1 rs2 : RegIdx) : Statement (.psub16 rd rs1 rs2) := fun _ _ => encR_fields ..

theorem psra16 (rd rs1 rs2 : RegIdx) : Statement (.psra16 rd rs1 rs2) := fun _ _ => encR_fields ..

theorem pack8 (rd rs1 rs2 : RegIdx) : Statement (.pack8 rd rs1 rs2) := fun _ _ => encR_fields ..

theorem addi (rd rs1 : RegIdx) (imm : Word) : Statement (.addi rd rs1 imm) := fun _ h => isI h ..

theorem xori (rd rs1 : RegIdx) (imm : Word) : Statement (.xori rd rs1 imm) := fun _ h => isI h ..

theorem lw (rd rs1 : RegIdx) (imm : Word) : Statement (.lw rd rs1 imm) := fun _ h => isI h ..

theorem lui (rd : RegIdx) (imm : Word) : Statement (.lui rd imm) := fun _ h => isU h ..

theorem sw (rs1 rs2 : RegIdx) (imm : Word) : Statement (.sw rs1 rs2 imm) := fun _ h => isS h ..

theorem beq (rs1 rs2 : RegIdx) (imm : Word) : Statement (.beq rs1 rs2 imm) := fun _ h => isB h ..

theorem bne (rs1 rs2 : RegIdx) (imm : Word) : Statement (.bne rs1 rs2 imm) := fun _ h => isB h ..

theorem jal (rd : RegIdx) (imm : Word) : Statement (.jal rd imm) := fun _ h => isJ h ..

theorem pmac8 (rd rs1 rs2 : RegIdx) : Statement (.pmac8 rd rs1 rs2) := fun _ _ => encR_fields ..

theorem bitrev (rd rs1 : RegIdx) : Statement (.bitrev rd rs1) := fun _ _ => encR_fields ..

end Sys2Proof.Laws.EncodeFields
end

