-- ==== Sys2Proof/Laws/Ports.lean ====
section
/-! SUPPORT. What the ports show of a step (R33), and what the loader answers (R210, R211). -/

namespace Sys2Proof.Machine

/-! ### The fetched word and its decoding -/

theorem State.decoded_of_fetch {s : State} {w : Word} (hr : s.run = .running) (hf : s.fetch = .ok w) :
    s.decoded = some (decode s.cfg w) := by
  unfold State.decoded State.fetched; rw [hr, hf]; rfl

theorem State.decoded_of_fetch_error {s : State} {reason : HaltReason} (hr : s.run = .running)
    (hf : s.fetch = .error reason) : s.decoded = none := by
  unfold State.decoded State.fetched; rw [hr, hf]; rfl

/-! ### The data port -/

theorem State.dataAccess_of_none {s : State} (h : s.decoded = none) : s.dataAccess = .none := by
  unfold State.dataAccess; rw [h]

theorem State.dataAccess_of_unknown {s : State} {raw : Word} (h : s.decoded = some (.unknown raw)) :
    s.dataAccess = .none := by
  unfold State.dataAccess; rw [h]

theorem State.dataAccess_of_lw {s : State} {rd rs1 : RegIdx} {imm : Word}
    (h : s.decoded = some (.instr (.lw rd rs1 imm))) :
    s.dataAccess = if (s.effAddr rs1 imm).toNat + 4 ≤ s.cfg.memSize then
      .load (s.effAddr rs1 imm) (s.mem.read32 (s.effAddr rs1 imm).toNat) else .none := by
  unfold State.dataAccess
  rw [h]
  by_cases hb : (s.effAddr rs1 imm).toNat + 4 ≤ s.cfg.memSize
  · simp only [State.loadWord, inBounds_iff, if_pos hb]
  · simp only [State.loadWord, inBounds_iff, if_neg hb]

theorem State.dataAccess_of_sw {s : State} {rs1 rs2 : RegIdx} {imm : Word}
    (h : s.decoded = some (.instr (.sw rs1 rs2 imm))) :
    s.dataAccess = if (s.effAddr rs1 imm).toNat + 4 ≤ s.cfg.memSize then
      .store (s.effAddr rs1 imm) (s.readReg rs2) else .none := by
  unfold State.dataAccess
  rw [h]
  simp only [inBounds_iff]

/-! ### The loader -/

theorem boot_eq_next {cfg : Config} {image : List Byte} {s : State} :
    boot cfg image = .next s ↔ image.length ≤ cfg.memSize ∧
      s = { State.resetWith cfg with mem := Memory.writeBytes [] 0 image } := by
  unfold boot
  split
  · rename_i h; simp [h, eq_comm]
  · rename_i h; simp [h]

/-- A byte of the memory a loaded image leaves. -/
theorem read_image (image : List Byte) (k : Nat) :
    Memory.read (Memory.writeBytes [] 0 image) k = if k < image.length then image.getD k 0 else 0 := by
  rw [Memory.read_writeBytes]; simp

/-! ### The host's question -/

/-- Laying a table word out in bytes and decoding them is decoding the word. -/
theorem decodeTableWord_eq (nbits w : Nat) :
    decodeTableWord nbits w = match decode Config.default (tableWord nbits w) with
      | .instr i => some i
      | .unknown _ => none := by
  unfold decodeTableWord
  simp only [leBytes, decodeBytes, leWord_leByte]
  cases decode Config.default (tableWord nbits w) <;> rfl

end Sys2Proof.Machine
end

