-- ==== Sys2Proof/Tests/Slice0.lean ====
section
/-! SUPPORT. The model's own tests: the WellFormed smoke, a word of every row written out field by field from R72 and
R80, one step or one execution per instruction with the values of spec/95_test_vectors.md, and for every statement with
hypotheses a state and operands that meet them all. -/

namespace Sys2Proof.Tests

open Sys2Proof Sys2Proof.Machine

/-! ### Small states -/

/-- Reset with x1, x2 and x3 set. -/
def st (a b d : Word) : State := ((State.reset.writeReg 1 a).writeReg 2 b).writeReg 3 d

/-- Reset with the pc set and a word placed there. -/
def at' (pc w : Word) : State := ({ State.reset with pc := pc } : State).placeWord w

/-- A small machine under the other policies: 64 bytes, Unknown continues, a misaligned pc fetches. -/
def other : Config :=
  { Config.default with memSize := 64, unknownPolicy := .continue, misalignedPcPolicy := .fetchUnaligned }

def Next (o : Host.Outcome State Fault Refusal) (p : State → Bool) : Bool :=
  match o with
  | .next t => p t
  | .fault _ => false
  | .refused _ => false

/-- The instruction answers a state in which x3 holds `v` and the pc has advanced. -/
def gives (i : Instr) (s : State) (v : Word) : Bool :=
  Next (exec i s) fun t => t.readReg 3 == v && t.pc == s.pc + 4

/-! ### WellFormed refuses ill-formed terms -/

theorem test_wf_addi_high : (Instr.addi 1 2 0x00000800).wf = false := by decide
theorem test_wf_addi_low : (Instr.addi 1 2 0xFFFFF7FF).wf = false := by decide
theorem test_wf_xori_high : (Instr.xori 1 2 0x00000800).wf = false := by decide
theorem test_wf_lw_low : (Instr.lw 1 2 0xFFFFF7FF).wf = false := by decide
theorem test_wf_sw_high : (Instr.sw 1 2 0x00000800).wf = false := by decide
theorem test_wf_beq_odd : (Instr.beq 1 2 0x00000001).wf = false := by decide
theorem test_wf_beq_high : (Instr.beq 1 2 0x00001000).wf = false := by decide
theorem test_wf_bne_low : (Instr.bne 1 2 0xFFFFEFFE).wf = false := by decide
theorem test_wf_lui_low_bits : (Instr.lui 1 0x00001001).wf = false := by decide
theorem test_wf_jal_odd : (Instr.jal 1 0x00000003).wf = false := by decide
theorem test_wf_jal_high : (Instr.jal 1 0x00100000).wf = false := by decide
theorem test_wf_jal_low : (Instr.jal 1 0xFFEFFFFE).wf = false := by decide
theorem test_wf_bounds_accepted :
    (Instr.addi 1 2 0xFFFFF800).wf = true ∧ (Instr.sw 1 2 0x000007FF).wf = true ∧
    (Instr.beq 1 2 0xFFFFF000).wf = true ∧ (Instr.bne 1 2 0x00000FFE).wf = true ∧
    (Instr.lui 1 0xFFFFF000).wf = true ∧ (Instr.jal 1 0xFFF00000).wf = true ∧
    (Instr.jal 1 0x000FFFFE).wf = true := by decide
theorem test_cfg_wf : Config.default.wf = true ∧ other.wf = true ∧
    { Config.default with memSize := 3 }.wf = false ∧
    { Config.default with custom0F3 := { pmac8 := 1, bitrev := 1 } }.wf = false := by decide

/-! ### A word of every row, its fields written out from R72 and R80 (values of 95_test_vectors.md L2.1) -/

theorem test_decode_add : decode Config.default 0b0000000_00010_00001_000_00011_0110011 = .instr (.add 3 1 2) := by decide
theorem test_decode_sub : decode Config.default 0b0100000_00010_00001_000_00011_0110011 = .instr (.sub 3 1 2) := by decide
theorem test_decode_or : decode Config.default 0b0000000_00010_00001_110_00011_0110011 = .instr (.or 3 1 2) := by decide
theorem test_decode_and : decode Config.default 0b0000000_00010_00001_111_00011_0110011 = .instr (.and 3 1 2) := by decide
theorem test_decode_pmul16 : decode Config.default 0b0000001_00010_00001_000_00011_0110011 = .instr (.pmul16 3 1 2) := by decide
theorem test_decode_padd16s : decode Config.default 0b0000001_00010_00001_001_00011_0110011 = .instr (.padd16s 3 1 2) := by decide
theorem test_decode_psub16 : decode Config.default 0b0000001_00010_00001_010_00011_0110011 = .instr (.psub16 3 1 2) := by decide
theorem test_decode_psra16 : decode Config.default 0b0000001_00010_00001_011_00011_0110011 = .instr (.psra16 3 1 2) := by decide
theorem test_decode_pack8 : decode Config.default 0b0000001_00010_00001_100_00011_0110011 = .instr (.pack8 3 1 2) := by decide
theorem test_decode_addi : decode Config.default 0b100000000000_00110_000_00101_0010011 = .instr (.addi 5 6 0xFFFFF800) := by decide
theorem test_decode_xori : decode Config.default 0b111111111111_01000_100_00111_0010011 = .instr (.xori 7 8 0xFFFFFFFF) := by decide
theorem test_decode_lui : decode Config.default 0b11111111111111111111_01001_0110111 = .instr (.lui 9 0xFFFFF000) := by decide
theorem test_decode_lw : decode Config.default 0b111111111100_01011_010_01010_0000011 = .instr (.lw 10 11 0xFFFFFFFC) := by decide
theorem test_decode_sw : decode Config.default 0b0000001_01100_01101_010_00100_0100011 = .instr (.sw 13 12 0x00000024) := by decide
theorem test_decode_beq : decode Config.default 0b0_111111_00010_00001_000_1111_1_1100011 = .instr (.beq 1 2 0x00000FFE) := by decide
theorem test_decode_bne : decode Config.default 0b0_000000_00010_00001_001_0000_1_1100011 = .instr (.bne 1 2 0x00000800) := by decide
theorem test_decode_jal_bit11 : decode Config.default 0b0_0000000000_1_00000000_00001_1101111 = .instr (.jal 1 0x00000800) := by decide
theorem test_decode_jal_mid : decode Config.default 0b0_0000000000_0_00000001_00001_1101111 = .instr (.jal 1 0x00001000) := by decide
theorem test_decode_jal_sign : decode Config.default 0b1_0000000000_0_00000000_00001_1101111 = .instr (.jal 1 0xFFF00000) := by decide
theorem test_decode_pmac8 : decode Config.default 0b0000000_00110_00101_000_01010_0001011 = .instr (.pmac8 10 5 6) := by decide
theorem test_decode_bitrev : decode Config.default 0b0000000_00000_00101_001_01011_0001011 = .instr (.bitrev 11 5) := by decide
/-- rs2 is ignored (R80, D7). -/
theorem test_decode_bitrev_rs2 : decode Config.default 0b0000000_11111_00101_001_01011_0001011 = .instr (.bitrev 11 5) := by decide
theorem test_decode_unknown_zero : decode Config.default 0x00000000 = .unknown 0x00000000 := by decide
theorem test_decode_unknown_funct7 : decode Config.default 0x40006033 = .unknown 0x40006033 := by decide
theorem test_decode_unknown_packed5 : decode Config.default 0x02005033 = .unknown 0x02005033 := by decide
/-- Another setting of CUSTOM0_F3 moves the rows (R8). -/
theorem test_decode_custom_map :
    decode { Config.default with custom0F3 := { pmac8 := 5, bitrev := 0 } } 0x0000000B = .instr (.bitrev 0 0) := by decide
theorem test_table_word : decodeTableWord 32 0xFE208EE3 = some (.beq 1 2 0xFFFFFFFC) ∧ decodeTableWord 32 0 = none := by decide
theorem test_encode_sw : encode Config.default (.sw 13 12 0xFFFFFFFF) = 0xFEC6AFA3 := by decide
theorem test_encode_jal : encode Config.default (.jal 1 0xFFFFFFFC) = 0xFFDFF0EF := by decide

/-! ### One execution per instruction (95_test_vectors.md L1, L2.2 to L2.5) -/

theorem test_add_wraps : gives (.add 3 1 2) (st 0x7FFFFFFF 1 0) 0x80000000 = true := by decide
theorem test_sub_borrows : gives (.sub 3 1 2) (st 0 1 0) 0xFFFFFFFF = true := by decide
theorem test_or : gives (.or 3 1 2) (st 0xF0F0F0F0 0x0F0F0F0F 0) 0xFFFFFFFF = true := by decide
theorem test_and : gives (.and 3 1 2) (st 0xF0F0F0F0 0x3C3C3C3C 0) 0x30303030 = true := by decide
theorem test_addi_minus_one : gives (.addi 3 1 0xFFFFFFFF) (st 5 0 0) 4 = true := by decide
theorem test_xori_flips_high_bits : gives (.xori 3 1 0xFFFFFFFF) (st 0x12345678 0 0) 0xEDCBA987 = true := by decide
theorem test_lui : gives (.lui 3 0xFFFFF000) (st 0 0 7) 0xFFFFF000 = true := by decide
theorem test_pmul16_signed : gives (.pmul16 3 1 2) (st 0x0100FFFE 0x01000003 0) 0x0000FFFA = true := by decide
theorem test_pmul16_source : gives (.pmul16 3 1 2) (st 0x00020003 0x00040005 0) 0x0008000F = true := by decide
theorem test_padd16s_both_bounds : gives (.padd16s 3 1 2) (st 0x7FFF8000 0x7FFF8000 0) 0x7FFF8000 = true := by decide
theorem test_padd16s_one_lane : gives (.padd16s 3 1 2) (st 0x00017FFF 0x00010001 0) 0x00027FFF = true := by decide
theorem test_psub16_no_borrow : gives (.psub16 3 1 2) (st 0x00000000 0x00010001 0) 0xFFFFFFFF = true := by decide
theorem test_psra16_sign : gives (.psra16 3 1 2) (st 0x80007FFF 0xFFFFFFFF 0) 0xFFFF0000 = true := by decide
theorem test_psra16_sixteen : gives (.psra16 3 1 2) (st 0x80007FFF 0x00000010 0) 0x80007FFF = true := by decide
theorem test_pack8 : gives (.pack8 3 1 2) (st 0x12345678 0x9ABCDEF0 0) 0xDE56F078 = true := by decide
theorem test_pmac8_source : gives (.pmac8 3 1 2) (st 0x01020304 0x04030201 0x14) 0x28 = true := by decide
theorem test_pmac8_wraps : gives (.pmac8 3 1 2) (st 0xFFFFFFFF 0xFFFFFFFF 0xFFFFFFFF) 3 = true := by decide
theorem test_bitrev : gives (.bitrev 3 1) (st 0x12345678 0 0) 0x1E6A2C48 = true := by decide
theorem test_x0_sink : Next (exec (.addi 0 1 1) (st 7 0 0)) (fun t => t.readReg 0 == 0 && t.pc == 4) = true := by decide

/-- L2.3: the bytes of a store lie little-endian. -/
theorem test_sw_bytes : Next (exec (.sw 1 2 0) (st 0x1000 0x12345678 0))
    (fun t => t.mem == [(0x1000, 0x78), (0x1001, 0x56), (0x1002, 0x34), (0x1003, 0x12)]) = true := by decide
/-- L2.3: an unaligned load over two stores. -/
theorem test_lw_unaligned : Next (exec (.lw 3 1 1) { st 0x1000 0 0 with
    mem := (Memory.write32 (Memory.write32 [] 0x1000 0x12345678) 0x1004 0xFFFFFFFF) })
    (fun t => t.readReg 3 == 0xFF123456) = true := by decide
/-- L2.3: EA = MEM_SIZE - 3 halts and writes nothing. -/
theorem test_lw_one_past : Next (exec (.lw 3 1 0xFFFFFFFD) (st 0x100000 0 9))
    (fun t => t.run == .halted (.dataOutOfBounds 0x000FFFFD) && t.readReg 3 == 9 && t.pc == 0) = true := by decide
/-- L2.3: EA wraps to 4. -/
theorem test_lw_wrap : Next (exec (.lw 3 1 8) { st 0xFFFFFFFC 0 0 with mem := Memory.write32 [] 4 0xCAFEF00D })
    (fun t => t.readReg 3 == 0xCAFEF00D) = true := by decide
/-- Storing zeros removes the cells (log 6). -/
theorem test_sw_zero : Next (exec (.sw 1 0 0) { st 0x1000 0 0 with mem := Memory.write32 [] 0x1000 0x12345678 })
    (fun t => t.mem == []) = true := by decide
/-- R141's example. -/
theorem test_beq_taken : Next (exec (.beq 1 2 0xFFFFFFFC) { st 7 7 0 with pc := 0x10 }) (fun t => t.pc == 0x0C) = true := by decide
theorem test_beq_not_taken : Next (exec (.beq 1 2 0xFFFFFFFC) { st 7 8 0 with pc := 0x10 }) (fun t => t.pc == 0x14) = true := by decide
theorem test_bne_taken : Next (exec (.bne 1 0 0xFFFFFFF8) { st 4 0 0 with pc := 0x10 }) (fun t => t.pc == 0x08) = true := by decide
theorem test_bne_equal : Next (exec (.bne 1 2 8) { st 7 7 0 with pc := 0x10 }) (fun t => t.pc == 0x14) = true := by decide
theorem test_jal : Next (exec (.jal 1 8) { st 0 0 0 with pc := 0x18 })
    (fun t => t.readReg 1 == 0x1C && t.pc == 0x20) = true := by decide
theorem test_jal_back_past_zero : Next (exec (.jal 1 0xFFFFFFFC) (st 0 0 0))
    (fun t => t.readReg 1 == 4 && t.pc == 0xFFFFFFFC) = true := by decide

/-! ### The step (L2.6) -/

theorem test_step_runs_word : Next (step (State.reset.withFetchWord 32 0x00500593)) (fun t => t.readReg 11 == 5 && t.pc == 4) = true := by decide
theorem test_step_unknown_halts : Next (step (at' 0x14 0)) (fun t =>
    t.run == .halted (.unknownInstruction 0) && t.pc == 0x14 && t.diags == [{ raw := 0, pc := 0x14 }]) = true := by decide
theorem test_step_unknown_continues : Next (step { at' 4 0xFFFFFFFF with cfg := other }) (fun t =>
    t.run == .running && t.pc == 8 && t.diags == [{ raw := 0xFFFFFFFF, pc := 4 }]) = true := by decide
theorem test_step_top_of_memory : Next (step (at' 0xFFFFC 0x00000013)) (fun t => t.pc == 0x100000 && t.run == .running) = true := by decide
theorem test_step_fetch_out_of_range : Next (step (at' 0x100000 0)) (fun t =>
    t.run == .halted (.fetchOutOfRange 0x00100000) && t.pc == 0x100000) = true := by decide
theorem test_step_misaligned : Next (step (at' 2 0x00000013)) (fun t => t.run == .halted (.misalignedPc 2) && t.pc == 2) = true := by decide
/-- Under FetchUnaligned, after `jal x0, 2` at 0 the word at 2 is 0x00000020, an Unknown. -/
theorem test_fetch_unaligned : ({ at' 0 0x0020006F with pc := 2, cfg := other } : State).fetch.toOption = some 0x00000020 := by decide
theorem test_priority_range_first : Next (step (at' 0xFFFFE 0)) (fun t => t.run == .halted (.fetchOutOfRange 0xFFFFE)) = true := by decide
theorem test_halted_fatal : step { State.reset with run := .halted (.misalignedPc 2) } = .fault (.fatal (.misalignedPc 2)) := rfl
theorem test_halted_ended : step { State.reset with run := .halted (.unknownInstruction 0) } = .fault (.ended (.unknownInstruction 0)) := rfl
theorem test_halt_codes : [HaltReason.unknownInstruction 0, .fetchOutOfRange 0, .misalignedPc 0, .dataOutOfBounds 0].map
    HaltReason.code = [0, 1, 2, 3] := by decide
theorem test_boot_image : Next (boot Config.default [0x13, 0x00, 0x50]) (fun s => s.mem == [(0, 0x13), (2, 0x50)]) = true := by decide
theorem test_boot_too_large : boot { Config.default with memSize := 4 } [1, 2, 3, 4, 5] = .refused (.imageTooLarge 5) := rfl
theorem test_ports_store : (ports { at' 0 0x0022A223 with regs := (State.reset.writeReg 5 0x1000 |>.writeReg 2 9).regs }).data =
    .store 0x1004 9 := by decide
theorem test_ports_load : (ports (at' 0 0x00002083)).data = .load 0 0x00002083 := by decide
theorem test_ports_out_of_bounds : (ports (at' 0 0xFFC02083)).data = .none := by decide

/-! ### Witnesses: for each statement with hypotheses, values that meet them together -/

theorem wit_BootLoadsImageVerbatim_fits : ([1, 2, 3, 4] : List Byte).length ≤ ({ Config.default with memSize := 4 } : Config).memSize := by decide
theorem wit_BootLoadsImageVerbatim_too_large : ({ Config.default with memSize := 4 } : Config).memSize < ([1, 2, 3, 4, 5] : List Byte).length := by decide
theorem wit_BootMeetsInvariant : other.wf = true ∧ ∃ s, boot other [0x13] = .next s := ⟨by decide, _, rfl⟩
theorem wit_ParametersNeverChange : (∃ t, clock .step State.reset = .next t) ∧ (∃ t, clock (.rst [1]) (at' 2 0) = .next t) :=
  ⟨⟨_, rfl⟩, ⟨_, rfl⟩⟩
theorem wit_RegisterAccess_nonzero : (1 : RegIdx) ≠ 0 ∧ (31 : RegIdx) ≠ 1 := by decide
theorem wit_RegisterAccess_x0_forms : [Instr.jal 0 8, .lw 0 1 0, .pmac8 0 1 2, .add 0 1 2].all (fun i => i.dest? = some 0) = true := by decide
/-- Both sides of the load's bound: EA = MEM_SIZE - 3 and EA = MEM_SIZE - 4. -/
theorem wit_RegisterAccess_lw_bound :
    (st 0xFFFFD 0 0).cfg.memSize < ((st 0xFFFFD 0 0).readReg 1 + 0).toNat + 4 ∧
    ¬ (st 0xFFFFC 0 0).cfg.memSize < ((st 0xFFFFC 0 0).readReg 1 + 0).toNat + 4 := by decide
theorem wit_OnlyNamedRegisterChanges_exec : (∃ t, exec (.add 3 1 2) (st 1 2 3) = .next t) ∧ (Instr.add 3 1 2).dest? ≠ some 4 :=
  ⟨⟨_, rfl⟩, by decide⟩
theorem wit_OnlyNamedRegisterChanges_step : (∃ t, step (at' 0 0) = .next t) ∧
    ∀ w i, (at' 0 0).fetch = .ok w → decode (at' 0 0).cfg w = .instr i → i.dest? ≠ some 4 := by
  refine ⟨⟨_, rfl⟩, fun w i hw hd => ?_⟩
  have h0 : (at' 0 0).fetch = .ok 0 := rfl
  rw [h0] at hw; cases hw; cases hd
theorem wit_SignExtension_bounds : (0 < 1 ∧ 1 ≤ 32) ∧ (0 < 32 ∧ 32 ≤ 32) := by decide
theorem wit_WordAccess_bounds : Config.default.memSize < (0xFFFFD : Word).toNat + 4 ∧ (0xFFFFC : Word).toNat + 4 ≤ Config.default.memSize := by decide
theorem wit_LittleEndian_lw : (3 : RegIdx) ≠ 0 ∧ ((st 0xFFFFC 0 0).readReg 1 + 0).toNat + 4 ≤ (st 0xFFFFC 0 0).cfg.memSize ∧
    ∃ t, exec (.lw 3 1 0) (st 0xFFFFC 0 0) = .next t := ⟨by decide, by decide, _, rfl⟩
theorem wit_LittleEndian_fetch : (at' 0xFFFFC 0x13).fetch = .ok 0x13 := rfl
theorem wit_LittleEndian_sw : ((st 0xFFFFC 5 0).readReg 1 + 0).toNat + 4 ≤ (st 0xFFFFC 5 0).cfg.memSize ∧
    ∃ t, exec (.sw 1 2 0) (st 0xFFFFC 5 0) = .next t := ⟨by decide, _, rfl⟩
theorem wit_CanonicalMemory : Memory.wf [(3, 0x01), (9, 0xFF)] = true := by decide
theorem wit_OutOfBoundsAccessHalts : (st 0xFFFFD 0 0).cfg.memSize < ((st 0xFFFFD 0 0).readReg 1 + 0).toNat + 4 := by decide
theorem wit_OverlappingLoad : ∃ t, ((st 0x1000 0xFF 0).readReg 1 + 0).toNat + 4 ≤ (st 0x1000 0xFF 0).cfg.memSize ∧
    exec (.sw 1 2 0) (st 0x1000 0xFF 0) = .next t ∧ (3 : RegIdx) ≠ 0 ∧ (t.readReg 1 + 1).toNat + 4 ≤ t.cfg.memSize :=
  ⟨_, by decide, rfl, by decide, by decide⟩
theorem wit_StoreSeenByNextFetch : ∃ t, (st 4 0x13 0).run = .running ∧ (st 4 0x13 0).readReg 1 + 0 = (st 4 0x13 0).pc + 4 ∧
    ((st 4 0x13 0).pc + 4).toNat + 4 ≤ (st 4 0x13 0).cfg.memSize ∧ ((st 4 0x13 0).pc + 4).toNat % 4 = 0 ∧
    decode (st 4 0x13 0).cfg ((st 4 0x13 0).readReg 2) = .instr (.addi 0 0 0) ∧ exec (.sw 1 2 0) (st 4 0x13 0) = .next t :=
  ⟨_, by decide, by decide, by decide, by decide, by decide, rfl⟩
/-- The same with a stored word that no row covers. -/
theorem wit_StoreSeenByNextFetch_unknown : ∃ t, (st 4 0xFFFFFFFF 0).run = .running ∧
    (st 4 0xFFFFFFFF 0).readReg 1 + 0 = (st 4 0xFFFFFFFF 0).pc + 4 ∧
    decode (st 4 0xFFFFFFFF 0).cfg ((st 4 0xFFFFFFFF 0).readReg 2) = .unknown 0xFFFFFFFF ∧
    exec (.sw 1 2 0) (st 4 0xFFFFFFFF 0) = .next t := ⟨_, by decide, by decide, by decide, rfl⟩
theorem wit_OnlyStoresChangeMemory :
    let s : State := { at' 0 0x0020A223 with regs := (st 0x1000 5 0).regs }
    ∃ t, step s = .next t ∧ t.mem ≠ s.mem := ⟨_, rfl, by decide⟩
theorem wit_Immediates_carriers : decode Config.default 0xFEC6AFA3 = .instr (.sw 13 12 0xFFFFFFFF) ∧
    decode Config.default 0x80208063 = .instr (.beq 1 2 0xFFFFF000) ∧ decode Config.default 0x00209463 = .instr (.bne 1 2 8) ∧
    decode Config.default 0x123454B7 = .instr (.lui 9 0x12345000) ∧ decode Config.default 0x7FFFF06F = .instr (.jal 0 0x000FFFFE) := by decide
theorem wit_IImmediate_carriers : decode Config.default 0x7FF30293 = .instr (.addi 5 6 0x7FF) ∧
    decode Config.default 0xFFF44393 = .instr (.xori 7 8 0xFFFFFFFF) ∧ decode Config.default 0x7FF5A503 = .instr (.lw 10 11 0x7FF) := by decide
theorem wit_DecodeOfEncode : Config.default.wf = true ∧ other.wf = true ∧ (Instr.jal 1 0x000FFFFE).wf = true := by decide
theorem wit_EncodeOfDecode : decode Config.default 0x01F2958B = .instr (.bitrev 11 5) ∧ decode Config.default 0x002081B3 = .instr (.add 3 1 2) := by decide
theorem wit_OpcodeTable_covered : opcodeTable.any (fun row => (0x0062850B : Word) &&& row.mask = row.value) = true := by decide
theorem wit_OpcodeTable_uncovered : opcodeTable.all (fun row => (0x0200000B : Word) &&& row.mask ≠ row.value) = true := by decide
theorem wit_Absent : opcodeOf 0x00000073 ∉ [0x33#7, 0x13#7, 0x37#7, 0x03#7, 0x23#7, 0x63#7, 0x6F#7, 0x0B#7] ∧
    (opcodeOf 0x00003003 = 0x03 ∧ funct3Of 0x00003003 ≠ 2) ∧ (opcodeOf 0x00001023 = 0x23 ∧ funct3Of 0x00001023 ≠ 2) ∧
    (opcodeOf 0x00002063 = 0x63 ∧ funct3Of 0x00002063 ≠ 0 ∧ funct3Of 0x00002063 ≠ 1) ∧
    (opcodeOf 0x00001013 = 0x13 ∧ funct3Of 0x00001013 ≠ 0 ∧ funct3Of 0x00001013 ≠ 4) ∧
    (opcodeOf 0x04000033 = 0x33 ∧ funct7Of 0x04000033 ∉ [0x00#7, 0x20#7, 0x01#7]) ∧
    (opcodeOf 0x0200000B = 0x0B ∧ funct7Of 0x0200000B ≠ 0) := by decide
/-- srl, sra, a packed and a custom-0 word without a row. -/
theorem wit_Absent_register_forms :
    (opcodeOf 0x00005033 = 0x33 ∧ funct7Of 0x00005033 = 0x00 ∧ funct3Of 0x00005033 ∉ [0#3, 6#3, 7#3]) ∧
    (opcodeOf 0x40005033 = 0x33 ∧ funct7Of 0x40005033 = 0x20 ∧ funct3Of 0x40005033 ≠ 0) ∧
    (opcodeOf 0x02007033 = 0x33 ∧ funct7Of 0x02007033 = 0x01 ∧ funct3Of 0x02007033 ∉ [0#3, 1#3, 2#3, 3#3, 4#3]) ∧
    (opcodeOf 0x0000200B = 0x0B ∧ funct3Of 0x0000200B ∉ [0#3, 1#3]) := by decide
theorem wit_LoadStore_in_bounds : ((st 0xFFFFC 0 0).effAddr 1 0).toNat + 4 ≤ (st 0xFFFFC 0 0).cfg.memSize := by decide
theorem wit_StoreThenLoad : ∃ t, ((st 0xFFFFB 7 0).readReg 1 + 1).toNat + 4 ≤ (st 0xFFFFB 7 0).cfg.memSize ∧
    exec (.sw 1 2 1) (st 0xFFFFB 7 0) = .next t ∧ t.readReg 1 + 1 = (st 0xFFFFB 7 0).readReg 1 + 1 := ⟨_, by decide, rfl, rfl⟩
theorem wit_BitReversal_twice : ∃ t u, exec (.bitrev 3 1) (st 6 0 0) = .next t ∧ exec (.bitrev 2 3) t = .next u := ⟨_, _, rfl, rfl⟩
theorem wit_LanesIndependent : (∃ t t', exec (.padd16s 3 1 2) (st 0x10001 2 0) = .next t ∧ exec (.padd16s 3 1 2) (st 0x20001 2 0) = .next t') ∧
    h0 ((st 0x10001 2 0).readReg 1) = h0 ((st 0x20001 2 0).readReg 1) ∧ h0 ((st 0x10001 2 0).readReg 2) = h0 ((st 0x20001 2 0).readReg 2) ∧
    h1 ((st 0x10001 2 0).readReg 2) = h1 ((st 0x20001 2 0).readReg 2) := ⟨⟨_, _, rfl, rfl⟩, by decide, by decide, by decide⟩
theorem wit_LanesIndependent_shift : ((st 0x10001 0x12 0).readReg 2).toNat % 16 = ((st 0x10001 0x22 0).readReg 2).toNat % 16 := by decide
theorem wit_ControlEffect : ∃ t, (st 0 0 0).run = .running ∧ exec (.jal 1 8) (st 0 0 0) = .next t ∧ t.run = .running := ⟨_, rfl, rfl, rfl⟩
theorem wit_ControlEffect_unknown : other.unknownPolicy = .continue := rfl
theorem wit_StepRuns_decoded : (at' 0xFFFFC 0x13).run = .running ∧ (at' 0xFFFFC 0x13).pc.toNat + 4 ≤ (at' 0xFFFFC 0x13).cfg.memSize ∧
    (at' 0xFFFFC 0x13).pc.toNat % 4 = 0 ∧
    decode (at' 0xFFFFC 0x13).cfg ((at' 0xFFFFC 0x13).mem.read32 (at' 0xFFFFC 0x13).pc.toNat) = .instr (.addi 0 0 0) := by decide
theorem wit_StepRuns_unknown_unaligned :
    ({ at' 2 0 with cfg := other } : State).pc.toNat + 4 ≤ other.memSize ∧ other.misalignedPcPolicy = .fetchUnaligned ∧
    decode other (({ at' 2 0 with cfg := other } : State).mem.read32 2) = .unknown 0 := by decide
theorem wit_StepRuns_encoded : State.reset.cfg.wf = true ∧ (Instr.addi 1 0 5).wf = true ∧ State.reset.run = .running ∧
    State.reset.pc.toNat + 4 ≤ State.reset.cfg.memSize ∧ State.reset.pc.toNat % 4 = 0 := by decide
theorem wit_FetchHalts_range : (at' 0xFFFFD 0).run = .running ∧ (at' 0xFFFFD 0).cfg.memSize < (at' 0xFFFFD 0).pc.toNat + 4 := by decide
theorem wit_FetchHalts_aligned : (at' 0xFFFFA 0).pc.toNat + 4 ≤ (at' 0xFFFFA 0).cfg.memSize ∧ (at' 0xFFFFA 0).pc.toNat % 4 ≠ 0 ∧
    (at' 0xFFFFA 0).cfg.misalignedPcPolicy = .halt := by decide
theorem wit_Unknown : (at' 4 0).run = .running ∧ (at' 4 0).fetch = .ok 0 ∧ decode (at' 4 0).cfg 0 = .unknown 0 ∧
    (at' 4 0).cfg.unknownPolicy = .halt ∧ ({ at' 4 0 with cfg := other } : State).fetch = .ok 0 := ⟨rfl, rfl, rfl, rfl, rfl⟩
theorem wit_SelfLoops : (at' 0 0x0000006F).run = .running ∧ (at' 0 0x0000006F).fetch = .ok 0x0000006F ∧
    (at' 0 0x00000063).fetch = .ok 0x00000063 := ⟨rfl, rfl, rfl⟩
/-- A step that answers: for DiagnosticsAreNeverRead, PortsDescribeStep, EveryReadSeesLastWrite, StepKeepsInvariant. -/
theorem wit_step_next : ∃ t, step (at' 0 0x00500593) = .next t := ⟨_, rfl⟩
theorem wit_HaltWritesOnlyRun : ∃ t, step (at' 2 0) = .next t ∧ t.run = .halted (.misalignedPc 2) := ⟨_, rfl, rfl⟩
theorem wit_HaltWritesOnlyRun_unknown : ∃ t, step (at' 4 0) = .next t ∧ t.run = .halted (.unknownInstruction 0) := ⟨_, rfl, rfl⟩
/-- For HaltedIsTerminal and FatalHaltsAreFaults: a machine halted for each reason. -/
theorem wit_Halted : ∀ reason : HaltReason, ({ State.reset with run := .halted reason } : State).run = .halted reason := fun _ => rfl
theorem wit_HaltedIsTerminal_rst : ∃ t, clock (.rst []) { State.reset with run := .halted (.misalignedPc 2) } = .next t := ⟨_, rfl⟩
/-- From a halted and from a running state, with an image that just fits. -/
theorem wit_HaltedIsTerminal_fits : ([1, 2, 3, 4] : List Byte).length ≤
    ({ State.resetWith { Config.default with memSize := 4 } with run := .halted (.misalignedPc 2) } : State).cfg.memSize ∧
    (State.resetWith { Config.default with memSize := 4 }).run = .running := by decide
theorem wit_EveryInstructionCompletes : ((st 0xFFFFC 0 0).readReg 1 + 0).toNat + 4 ≤ (st 0xFFFFC 0 0).cfg.memSize := by decide
theorem wit_RunningMachineAlwaysSteps : State.reset.run = .running := rfl
theorem wit_NonFatalSteps : ∃ t, step (at' 0 0x00500593) = .next t ∧ t.fatallyHalted = false ∧ (at' 0 0x00500593).cfg.misalignedPcPolicy = .halt :=
  ⟨_, rfl, by decide, rfl⟩
/-- StepKeepsInvariant: a running state that is not the reset state, meets the invariant and steps. -/
theorem wit_StepKeepsInvariant : (at' 0 0x00500593).Inv ∧ ∃ t, step (at' 0 0x00500593) = .next t := by
  refine ⟨?_, _, rfl⟩
  exact { cfg_wf := by decide, x0_zero := rfl, mem_wf := by decide, mem_bound := by decide, pc_even := rfl,
          halt_ok := (fun reason h => nomatch h) }
theorem wit_EveryRun : ∃ s t, Config.default.wf = true ∧ boot Config.default [0x93, 0x05, 0x50] = .next s ∧
    Sys2Proof.core.run 1 s = .next t := ⟨_, _, by decide, rfl, rfl⟩

end Sys2Proof.Tests
end

section
/-! The bits of the lanes of a word (R15): one rule per lane accessor, and `pack16` read through `h0_pack16` and
`h1_pack16`. -/

namespace Sys2Proof.Machine

theorem getLsbD_h0 (v : Word) {k : Nat} (hk : k < 16) : (h0 v).getLsbD k = v.getLsbD k := by
  simp [h0, hk]

theorem getLsbD_h1 (v : Word) {k : Nat} (hk : k < 16) : (h1 v).getLsbD k = v.getLsbD (16 + k) := by
  simp [h1, hk]

theorem getLsbD_byteLane (v : Word) (i : Nat) {k : Nat} (hk : k < 8) :
    (byteLane v i).getLsbD k = v.getLsbD (8 * i + k) := by
  simp [byteLane, hk]

theorem getLsbD_pack16_low (l0 l1 : Half) {k : Nat} (hk : k < 16) :
    (pack16 l0 l1).getLsbD k = l0.getLsbD k := by
  rw [← getLsbD_h0 _ hk, h0_pack16]

theorem getLsbD_pack16_high (l0 l1 : Half) {k : Nat} (hk : k < 16) :
    (pack16 l0 l1).getLsbD (16 + k) = l1.getLsbD k := by
  rw [← getLsbD_h1 _ hk, h1_pack16]

/-- Settles O8, from the bit rule of each lane accessor and of the two halves of `pack16`. -/
theorem lanesAreBitFields : Obligations.LanesAreBitFields := fun v =>
  ⟨fun _ hk => ⟨getLsbD_h0 v hk, getLsbD_h1 v hk⟩,
   fun i _ _ hk => getLsbD_byteLane v i hk,
   fun l0 l1 _ hk => ⟨getLsbD_pack16_low l0 l1 hk, getLsbD_pack16_high l0 l1 hk⟩⟩

end Sys2Proof.Machine
end

section
/-! The one little-endian byte order of memory (R51, R52): byte by byte, what an in-bounds `lw` leaves in its register,
what a fetch answers and what an in-bounds `sw` leaves in memory. -/

namespace Sys2Proof.Machine

/-- R51, R131: an in-bounds `lw` puts the byte at EA + k in byte `k` of its destination register. -/
theorem leByte_readReg_of_exec_lw {s t : State} {rd rs1 : RegIdx} {imm : Word} (hrd : rd ≠ 0)
    (hb : (s.effAddr rs1 imm).toNat + 4 ≤ s.cfg.memSize) (h : exec (.lw rd rs1 imm) s = .next t)
    {k : Nat} (hk : k < 4) :
    leByte (t.readReg rd) k = Memory.read s.mem ((s.effAddr rs1 imm).toNat + k) := by
  have hret : s.retire rd (s.mem.read32 (s.effAddr rs1 imm).toNat) = .next t :=
    (execLw_of_inBounds hb).symm.trans h
  rw [State.readReg_retire hret, if_pos ⟨rfl, hrd⟩, Memory.leByte_read32 _ _ _ hk]

/-- R51, R172: a fetched word has the byte at pc + k as its byte `k`. -/
theorem leByte_of_fetch {s : State} {w : Word} (h : s.fetch = .ok w) {k : Nat} (hk : k < 4) :
    leByte w k = Memory.read s.mem (s.pc.toNat + k) := by
  obtain ⟨-, -, rfl⟩ := State.fetch_eq_ok.1 h
  exact Memory.leByte_read32 _ _ _ hk

/-- R52, R132: after an in-bounds `sw` an address reads as the stored word's own byte inside the four bytes at EA, and
as before outside them. -/
theorem read_mem_of_exec_sw {s t : State} {rs1 rs2 : RegIdx} {imm : Word}
    (hb : (s.effAddr rs1 imm).toNat + 4 ≤ s.cfg.memSize) (h : exec (.sw rs1 rs2 imm) s = .next t) (c : Nat) :
    Memory.read t.mem c =
      if (s.effAddr rs1 imm).toNat ≤ c ∧ c < (s.effAddr rs1 imm).toNat + 4 then
        leByte (s.readReg rs2) (c - (s.effAddr rs1 imm).toNat)
      else Memory.read s.mem c := by
  cases (execSw_of_inBounds hb).symm.trans h
  exact Memory.read_write32 ..

/-- Settles O11: `lw` and the fetch both read through `Memory.leByte_read32`, and the byte at EA + k after `sw` lies
inside the word written. -/
theorem loadFetchStoreLittleEndian : Obligations.LoadFetchStoreLittleEndian := by
  refine ⟨fun s t rd rs1 imm hrd hb h k hk => leByte_readReg_of_exec_lw hrd hb h hk,
    fun s w h k hk => leByte_of_fetch h hk, fun s t rs1 rs2 imm hb h k hk => ?_⟩
  have hread := read_mem_of_exec_sw hb h ((s.effAddr rs1 imm).toNat + k)
  rwa [if_pos ⟨by omega, by omega⟩, Nat.add_sub_cancel_left] at hread

end Sys2Proof.Machine
end

section
/-! The immediates of the S, B, U and J formats (R75 to R78): the bits of each as bits of the word, the range of each as
the check of WellFormed, and the immediate a decoded instruction carries. -/

namespace Sys2Proof

/-- R11: a bit of a sign-extended field is the field's own inside the field, and the field's top bit above it. -/
theorem getLsbD_sext_of_lt_32 {n : Nat} (f : BitVec n) {k : Nat} (hk : k < 32) :
    (sext f).getLsbD k = if k < n then f.getLsbD k else f.getLsbD (n - 1) := by
  rw [getLsbD_sext, decide_eq_true hk, Bool.true_and, BitVec.msb_eq_getLsbD_last]

/-! ### The bits: each is a bit of the field, read off the concatenation that makes the field, or its top bit -/

section
variable (w : Word) {k : Nat}

theorem getLsbD_immS (hk : k < 32) :
    (immS w).getLsbD k =
      if k < 5 then w.getLsbD (k + 7) else if k < 12 then w.getLsbD (k + 20) else w.getLsbD 31 := by
  rw [immS, getLsbD_sext_of_lt_32 _ hk]
  simp only [getLsbD_field, BitVec.getLsbD_append]
  split <;> grind

theorem getLsbD_immB (hk : k < 32) :
    (immB w).getLsbD k =
      if k = 0 then false else if k < 5 then w.getLsbD (k + 7) else if k < 11 then w.getLsbD (k + 20)
      else if k = 11 then w.getLsbD 7 else w.getLsbD 31 := by
  rw [immB, getLsbD_sext_of_lt_32 _ hk]
  simp only [getLsbD_field, BitVec.getLsbD_append]
  split <;> grind

theorem getLsbD_immU (hk : k < 32) :
    (immU w).getLsbD k = if k < 12 then false else w.getLsbD k := by
  simp only [immU, getLsbD_field, BitVec.getLsbD_append]
  grind

theorem getLsbD_immJ (hk : k < 32) :
    (immJ w).getLsbD k =
      if k = 0 then false else if k < 11 then w.getLsbD (k + 20) else if k = 11 then w.getLsbD 20
      else if k < 20 then w.getLsbD k else w.getLsbD 31 := by
  rw [immJ, getLsbD_sext_of_lt_32 _ hk]
  simp only [getLsbD_field, BitVec.getLsbD_append]
  split <;> grind

/-- The mask of R77 is twenty ones over twelve zeros. -/
theorem getLsbD_upperMask (hk : k < 32) : (0xFFFFF000 : Word).getLsbD k = !decide (k < 12) := by
  have hmask : (0xFFFFF000 : Word) = BitVec.allOnes 20 ++ 0#12 := by decide
  rw [hmask, BitVec.getLsbD_append, BitVec.getLsbD_allOnes, BitVec.getLsbD_zero]
  by_cases h : k < 12
  · simp [h]
  · simp [h]; omega

/-- The second form of R77. -/
theorem immU_eq_and : immU w = w &&& 0xFFFFF000 := by
  apply BitVec.eq_of_getLsbD_eq
  intro k hk
  rw [BitVec.getLsbD_and, getLsbD_immU w hk, getLsbD_upperMask hk]
  by_cases h : k < 12
  · simp [h]
  · simp [h]

end

/-! ### The ranges -/

theorem immOk12_iff {imm : Word} : immOk12 imm = true ↔ -2048 ≤ imm.toInt ∧ imm.toInt ≤ 2047 := by
  simp only [immOk12, Bool.and_eq_true, decide_eq_true_eq]

theorem immOkB_iff {imm : Word} :
    immOkB imm = true ↔ -4096 ≤ imm.toInt ∧ imm.toInt ≤ 4094 ∧ imm.toInt % 2 = 0 := by
  simp only [immOkB, Bool.and_eq_true, decide_eq_true_eq, and_assoc]

theorem immOkJ_iff {imm : Word} :
    immOkJ imm = true ↔ -1048576 ≤ imm.toInt ∧ imm.toInt ≤ 1048574 ∧ imm.toInt % 2 = 0 := by
  simp only [immOkJ, Bool.and_eq_true, decide_eq_true_eq, and_assoc]

theorem immOk12_immS (w : Word) : immOk12 (immS w) = true := immOk12_sext _

theorem immOkB_immB (w : Word) : immOkB (immB w) = true :=
  immOkB_sext (w.extractLsb' 31 1 ++ w.extractLsb' 7 1 ++ w.extractLsb' 25 6 ++ w.extractLsb' 8 4)

theorem immOkJ_immJ (w : Word) : immOkJ (immJ w) = true :=
  immOkJ_sext (w.extractLsb' 31 1 ++ w.extractLsb' 12 8 ++ w.extractLsb' 20 1 ++ w.extractLsb' 21 10)

/-! ### The carriers -/

section
variable {cfg : Config} {w imm : Word} {rd rs1 rs2 : RegIdx}

theorem imm_of_decode_sw (h : decode cfg w = .instr (.sw rs1 rs2 imm)) : imm = immS w := by
  obtain ⟨-, -, -, -, himm⟩ := decode_row h
  exact himm

theorem imm_of_decode_beq (h : decode cfg w = .instr (.beq rs1 rs2 imm)) : imm = immB w := by
  obtain ⟨-, -, -, -, himm⟩ := decode_row h
  exact himm

theorem imm_of_decode_bne (h : decode cfg w = .instr (.bne rs1 rs2 imm)) : imm = immB w := by
  obtain ⟨-, -, -, -, himm⟩ := decode_row h
  exact himm

theorem imm_of_decode_lui (h : decode cfg w = .instr (.lui rd imm)) : imm = immU w := by
  obtain ⟨-, -, himm⟩ := decode_row h
  exact himm

theorem imm_of_decode_jal (h : decode cfg w = .instr (.jal rd imm)) : imm = immJ w := by
  obtain ⟨-, -, himm⟩ := decode_row h
  exact himm

end

/-- Settles O17, format by format: the bit rule of the immediate, its range as WellFormed checks it, and the row of the
instruction that carries it. -/
theorem immediatesFromWordBits : Obligations.ImmediatesFromWordBits := by
  intro cfg w
  obtain ⟨hSlo, hShi⟩ := immOk12_iff.1 (immOk12_immS w)
  obtain ⟨hBlo, hBhi, hBeven⟩ := immOkB_iff.1 (immOkB_immB w)
  obtain ⟨hJlo, hJhi, hJeven⟩ := immOkJ_iff.1 (immOkJ_immJ w)
  refine ⟨?immS, ?immB, ?immU, ?immJ⟩
  case immS =>
    exact ⟨fun _ hk => getLsbD_immS w hk, hSlo, hShi, fun _ _ _ h => imm_of_decode_sw h⟩
  case immB =>
    exact ⟨fun _ hk => getLsbD_immB w hk, hBlo, hBhi, hBeven,
      fun _ _ _ h => h.elim imm_of_decode_beq imm_of_decode_bne⟩
  case immU =>
    exact ⟨fun _ hk => getLsbD_immU w hk, immU_eq_and w, fun _ _ h => imm_of_decode_lui h⟩
  case immJ =>
    exact ⟨fun _ hk => getLsbD_immJ w hk, hJlo, hJhi, hJeven, fun _ _ h => imm_of_decode_jal h⟩

end Sys2Proof
end

section
/-! The saturation of R151: `sat16` is the 16-bit pattern of the clamped integer, and the clamp fits a signed half-word. -/

namespace Sys2Proof.Machine

theorem sat16_eq_ofInt_clamp (v : Int) : sat16 v = BitVec.ofInt 16 (max (-32768) (min 32767 v)) := by
  unfold sat16
  split
  case isTrue habove => rw [min_eq_left habove.le, max_eq_right (by decide)]
  case isFalse hle =>
    rw [min_eq_right (not_lt.1 hle)]
    split
    case isTrue hbelow => rw [max_eq_left hbelow.le]
    case isFalse hge => rw [max_eq_right (not_lt.1 hge)]

theorem toInt_sat16 (v : Int) : (sat16 v).toInt = max (-32768) (min 32767 v) := by
  rw [sat16_eq_ofInt_clamp]
  exact BitVec.toInt_ofInt_eq_self (by decide) (by omega) (by omega)

/-- Settles O30: the clamped integer lies in the signed range of 16 bits, so its pattern reads back as itself. -/
theorem saturationClampsTo16Bits : Obligations.SaturationClampsTo16Bits := toInt_sat16

end Sys2Proof.Machine
end

section
/-! The control effect of an instruction (R170): the pc after any `exec` that does not halt is the pc its effect gives,
and what that effect is for each instruction. -/

namespace Sys2Proof.Machine

/-- R170: an effect sets the pc from the state's own pc alone, so a register written before it does not matter. -/
theorem applyEffect_pc_writeReg (s : State) (rd : RegIdx) (v : Word) (e : ControlEffect) :
    ((s.writeReg rd v).applyEffect e).pc = (s.applyEffect e).pc := by
  cases e <;> simp

/-- R141, R142: a branch goes to its target when taken and to the next instruction otherwise. -/
theorem applyEffect_pc_branchEffect (s : State) (taken : Bool) (imm : Word) :
    (s.applyEffect (s.branchEffect taken imm)).pc = if taken then s.pc + imm else s.pc + 4 := by
  cases taken <;> rfl

/-- R170: an instruction that leaves the machine running leaves the pc its control effect gives. -/
theorem pc_eq_applyEffect_pc_of_exec {i : Instr} {s t : State} (h : exec i s = .next t) (hrun : t.run = .running) :
    t.pc = (s.applyEffect (effectOf i s)).pc := by
  obtain ⟨rd, v, hw⟩ | ⟨rs1, rs2, imm, rfl, -, hstore⟩ | ⟨rs1, imm, -, -, hhalt⟩ := exec_cases i s
  · cases hw.symm.trans h
    exact applyEffect_pc_writeReg s rd v _
  · cases hstore.symm.trans h
    rfl
  · cases hhalt.symm.trans h
    cases hrun

/-- R171: under the policy Continue an `Unknown` leaves the run state and goes to the next instruction. -/
theorem execUnknown_of_continue (raw : Word) {s : State} (hp : s.cfg.unknownPolicy = .continue) :
    ∃ t, execUnknown raw s = .next t ∧ t.run = s.run ∧ t.pc = s.pc + 4 := by
  obtain ⟨hhalt, -⟩ | ⟨-, hnext⟩ := execUnknown_cases raw s
  · cases hp.symm.trans hhalt
  · exact ⟨_, hnext, rfl, rfl⟩

/-- Settles O40: the pc is the one `effectOf` gives, read off for the two branches by their condition and for every other
instruction by definition. -/
theorem controlEffectOfEachInstruction : Obligations.ControlEffectOfEachInstruction := by
  refine ⟨fun i s t _ h hrun => ?_, fun raw s hp => execUnknown_of_continue raw hp⟩
  rw [pc_eq_applyEffect_pc_of_exec h hrun]
  cases i with
  | beq rs1 rs2 imm => simp [effectOf, applyEffect_pc_branchEffect, State.condEq]
  | bne rs1 rs2 imm => simp [effectOf, applyEffect_pc_branchEffect, State.condNe]
  | jal | add | sub | or | and | pmul16 | padd16s | psub16 | psra16 | pack8 | addi | xori | lui | lw | sw | pmac8
  | bitrev => rfl

end Sys2Proof.Machine
end

section
/-! Programs of one instruction that jumps to itself (R174): the step answers the state it started from, so every run
does. -/

namespace Sys2Proof.Machine

/-- A step that changes nothing is repeated forever. -/
theorem run_of_step_self {s : State} (h : step s = .next s) (n : Nat) : Sys2Proof.core.run n s = .next s := by
  induction n with
  | zero => exact run_zero s
  | succ n ih => rw [run_succ_of_next h, ih]

/-- R140: displacement 0 is the instruction's own address. -/
theorem applyEffect_redirect_target_zero (s : State) : s.applyEffect (.redirect (s.target 0)) = s := by
  simp [State.applyEffect, State.target]

/-- R143: `jal x0, 0` links nowhere and jumps to itself. -/
theorem exec_jal_self (s : State) : exec (.jal 0 0) s = .next s :=
  congrArg Host.Outcome.next (applyEffect_redirect_target_zero s)

/-- R141: `beq` of a register with itself is taken, and displacement 0 branches to itself. -/
theorem exec_beq_self (r : RegIdx) (s : State) : exec (.beq r r 0) s = .next s := by
  have htaken : s.condEq r r = true := decide_eq_true rfl
  change Host.Outcome.next (s.applyEffect (s.branchEffect (s.condEq r r) 0)) = _
  rw [htaken]
  exact congrArg Host.Outcome.next (applyEffect_redirect_target_zero s)

/-- R80: 0x0000006F is `jal x0, 0` under every setting. -/
theorem decode_jal_self (cfg : Config) : decode cfg 0x0000006F = .instr (.jal 0 0) := rfl

/-- R80: 0x00000063 is `beq x0, x0, 0` under every setting. -/
theorem decode_beq_self (cfg : Config) : decode cfg 0x00000063 = .instr (.beq 0 0 0) := rfl

/-- Settles O45: each of the two words decodes to an instruction whose step changes nothing. -/
theorem selfLoopsRunForever : Obligations.SelfLoopsRunForever := by
  intro s n hrun hfetch
  apply run_of_step_self
  obtain hjal | hbeq := hfetch
  · rw [step_of_instr hrun hjal (decode_jal_self s.cfg), exec_jal_self]
  · rw [step_of_instr hrun hbeq (decode_beq_self s.cfg), exec_beq_self]

end Sys2Proof.Machine
end

section
/-! The decoder and the encoder meet in `Instr.Row` (R72, R80): a word is in the row of an instruction exactly when it
decodes to it, an encoded word is in the row of its instruction, and the row's fields put together again are the word. -/

namespace Sys2Proof

/-! ### The dispatch on the opcode (R79) -/

section
variable (cfg : Config) {w : Word}

theorem decode_of_opcode_op (h : opcodeOf w = 0x33) : decode cfg w = decodeOp cfg.packedF3 w := by
  simp [decode, h]

theorem decode_of_opcode_opImm (h : opcodeOf w = 0x13) : decode cfg w = decodeOpImm w := by
  simp [decode, h]

theorem decode_of_opcode_lui (h : opcodeOf w = 0x37) : decode cfg w = .instr (.lui (rdOf w) (immU w)) := by
  simp [decode, h]

theorem decode_of_opcode_load (h : opcodeOf w = 0x03) : decode cfg w = decodeLoad w := by
  simp [decode, h]

theorem decode_of_opcode_store (h : opcodeOf w = 0x23) : decode cfg w = decodeStore w := by
  simp [decode, h]

theorem decode_of_opcode_branch (h : opcodeOf w = 0x63) : decode cfg w = decodeBranch w := by
  simp [decode, h]

theorem decode_of_opcode_jal (h : opcodeOf w = 0x6F) : decode cfg w = .instr (.jal (rdOf w) (immJ w)) := by
  simp [decode, h]

theorem decode_of_opcode_custom0 (h : opcodeOf w = 0x0B) : decode cfg w = decodeCustom0 cfg.custom0F3 w := by
  simp [decode, h]

end

/-! ### A word of a row decodes to the row's instruction -/

/-- What legal parameters say of the funct3 maps: no earlier row of the dispatch takes a later row's value (R8). -/
theorem Config.wf_iff {cfg : Config} :
    cfg.wf = true ↔ (4 ≤ cfg.memSize ∧ cfg.memSize ≤ 2 ^ 32) ∧
      [cfg.packedF3.pmul16, cfg.packedF3.padd16s, cfg.packedF3.psub16, cfg.packedF3.psra16,
        cfg.packedF3.pack8].Nodup ∧ cfg.custom0F3.pmac8 ≠ cfg.custom0F3.bitrev := by
  simp only [Config.wf, PackedF3.wf, Custom0F3.wf, Bool.and_eq_true, decide_eq_true_eq, and_assoc]

/-- The decoder is complete: under legal parameters every word of a row decodes to that row's instruction. -/
theorem decode_of_row {cfg : Config} {w : Word} {i : Instr} (hcfg : cfg.wf = true) (h : i.Row cfg w) :
    decode cfg w = .instr i := by
  obtain ⟨-, hpacked, hcustom⟩ := Config.wf_iff.1 hcfg
  simp only [List.nodup_cons, List.mem_cons, List.not_mem_nil, or_false, not_or] at hpacked
  cases i with
  | add | sub | or | and =>
    obtain ⟨hop, hf7, hf3, rfl, rfl, rfl⟩ := h
    simp [decode_of_opcode_op cfg hop, decodeOp, hf7, hf3]
  | pmul16 | padd16s | psub16 | psra16 | pack8 =>
    obtain ⟨hop, hf7, hf3, rfl, rfl, rfl⟩ := h
    simp [decode_of_opcode_op cfg hop, decodeOp, hf7, hf3, hpacked, eq_comm]
  | addi | xori =>
    obtain ⟨hop, hf3, rfl, rfl, rfl⟩ := h
    simp [decode_of_opcode_opImm cfg hop, decodeOpImm, hf3]
  | lui =>
    obtain ⟨hop, rfl, rfl⟩ := h
    exact decode_of_opcode_lui cfg hop
  | lw =>
    obtain ⟨hop, hf3, rfl, rfl, rfl⟩ := h
    simp [decode_of_opcode_load cfg hop, decodeLoad, hf3]
  | sw =>
    obtain ⟨hop, hf3, rfl, rfl, rfl⟩ := h
    simp [decode_of_opcode_store cfg hop, decodeStore, hf3]
  | beq | bne =>
    obtain ⟨hop, hf3, rfl, rfl, rfl⟩ := h
    simp [decode_of_opcode_branch cfg hop, decodeBranch, hf3]
  | jal =>
    obtain ⟨hop, rfl, rfl⟩ := h
    exact decode_of_opcode_jal cfg hop
  | pmac8 =>
    obtain ⟨hop, hf7, hf3, rfl, rfl, rfl⟩ := h
    simp [decode_of_opcode_custom0 cfg hop, decodeCustom0, hf7, hf3]
  | bitrev =>
    obtain ⟨hop, hf7, hf3, rfl, rfl⟩ := h
    simp [decode_of_opcode_custom0 cfg hop, decodeCustom0, hf7, hf3, hcustom.symm]

/-! ### An encoded word is in the row of its instruction -/

theorem rowR_of_isR {w : Word} {f7 op : BitVec 7} {rs2 rs1 rd : RegIdx} {f3 : BitVec 3}
    (h : Laws.EncodeFields.IsR w f7 rs2 rs1 f3 rd op) : RowR w op f7 f3 rd rs1 rs2 := by
  obtain ⟨hop, hrd, hf3, hrs1, hrs2, hf7⟩ := h
  exact ⟨hop, hf7, hf3, hrd.symm, hrs1.symm, hrs2.symm⟩

/-- The encoded word of a well-formed instruction is in its row, whatever the parameters (R72, R80). -/
theorem row_encode (cfg : Config) {i : Instr} (h : i.wf = true) : i.Row cfg (encode cfg i) := by
  cases i with
  | add rd rs1 rs2 => exact rowR_of_isR (Laws.EncodeFields.add rd rs1 rs2 cfg h)
  | sub rd rs1 rs2 => exact rowR_of_isR (Laws.EncodeFields.sub rd rs1 rs2 cfg h)
  | or rd rs1 rs2 => exact rowR_of_isR (Laws.EncodeFields.or rd rs1 rs2 cfg h)
  | and rd rs1 rs2 => exact rowR_of_isR (Laws.EncodeFields.and rd rs1 rs2 cfg h)
  | pmul16 rd rs1 rs2 => exact rowR_of_isR (Laws.EncodeFields.pmul16 rd rs1 rs2 cfg h)
  | padd16s rd rs1 rs2 => exact rowR_of_isR (Laws.EncodeFields.padd16s rd rs1 rs2 cfg h)
  | psub16 rd rs1 rs2 => exact rowR_of_isR (Laws.EncodeFields.psub16 rd rs1 rs2 cfg h)
  | psra16 rd rs1 rs2 => exact rowR_of_isR (Laws.EncodeFields.psra16 rd rs1 rs2 cfg h)
  | pack8 rd rs1 rs2 => exact rowR_of_isR (Laws.EncodeFields.pack8 rd rs1 rs2 cfg h)
  | pmac8 rd rs1 rs2 => exact rowR_of_isR (Laws.EncodeFields.pmac8 rd rs1 rs2 cfg h)
  | bitrev rd rs1 =>
    obtain ⟨hop, hf7, hf3, hrd, hrs1, -⟩ := rowR_of_isR (Laws.EncodeFields.bitrev rd rs1 cfg h)
    exact ⟨hop, hf7, hf3, hrd, hrs1⟩
  | addi rd rs1 imm =>
    obtain ⟨hop, hrd, hf3, hrs1, himm⟩ := Laws.EncodeFields.addi rd rs1 imm cfg h
    exact ⟨hop, hf3, hrd.symm, hrs1.symm, himm.symm⟩
  | xori rd rs1 imm =>
    obtain ⟨hop, hrd, hf3, hrs1, himm⟩ := Laws.EncodeFields.xori rd rs1 imm cfg h
    exact ⟨hop, hf3, hrd.symm, hrs1.symm, himm.symm⟩
  | lw rd rs1 imm =>
    obtain ⟨hop, hrd, hf3, hrs1, himm⟩ := Laws.EncodeFields.lw rd rs1 imm cfg h
    exact ⟨hop, hf3, hrd.symm, hrs1.symm, himm.symm⟩
  | lui rd imm =>
    obtain ⟨hop, hrd, himm⟩ := Laws.EncodeFields.lui rd imm cfg h
    exact ⟨hop, hrd.symm, himm.symm⟩
  | jal rd imm =>
    obtain ⟨hop, hrd, himm⟩ := Laws.EncodeFields.jal rd imm cfg h
    exact ⟨hop, hrd.symm, himm.symm⟩
  | sw rs1 rs2 imm =>
    obtain ⟨hop, hf3, hrs1, hrs2, himm⟩ := Laws.EncodeFields.sw rs1 rs2 imm cfg h
    exact ⟨hop, hf3, hrs1.symm, hrs2.symm, himm.symm⟩
  | beq rs1 rs2 imm =>
    obtain ⟨hop, hf3, hrs1, hrs2, himm⟩ := Laws.EncodeFields.beq rs1 rs2 imm cfg h
    exact ⟨hop, hf3, hrs1.symm, hrs2.symm, himm.symm⟩
  | bne rs1 rs2 imm =>
    obtain ⟨hop, hf3, hrs1, hrs2, himm⟩ := Laws.EncodeFields.bne rs1 rs2 imm cfg h
    exact ⟨hop, hf3, hrs1.symm, hrs2.symm, himm.symm⟩

/-- Settles O19: the encoded word is in the row of its instruction, and the decoder is complete on rows. -/
theorem decodeOfEncodeIsIdentity : Obligations.DecodeOfEncodeIsIdentity :=
  fun cfg _ hcfg hi => decode_of_row hcfg (row_encode cfg hi)

/-! ### The fields of a word put together again (R71, R72) -/

section
variable (w : Word)

theorem encR_of_fields : encR (funct7Of w) (rs2Of w) (rs1Of w) (funct3Of w) (rdOf w) (opcodeOf w) = w := by
  apply BitVec.eq_of_getLsbD_eq
  intro k hk
  simp only [encR, opcodeOf, rdOf, funct3Of, rs1Of, rs2Of, funct7Of, getLsbD_field, BitVec.getLsbD_append]
  grind

/-- The encoder writes zeros where bitrev ignores the rs2 field (D7, log 2). -/
theorem encR_of_fields_no_rs2 :
    encR (funct7Of w) 0 (rs1Of w) (funct3Of w) (rdOf w) (opcodeOf w) = w &&& 0xFE0FFFFF := by
  have hmask : (0xFE0FFFFF : Word) = BitVec.allOnes 7 ++ 0#5 ++ BitVec.allOnes 20 := by decide
  apply BitVec.eq_of_getLsbD_eq
  intro k hk
  simp only [hmask, encR, opcodeOf, rdOf, funct3Of, rs1Of, funct7Of, getLsbD_field, BitVec.getLsbD_append,
    BitVec.getLsbD_and, BitVec.getLsbD_allOnes, BitVec.getLsbD_zero]
  grind

/-- R74, bit by bit. -/
theorem getLsbD_immI {k : Nat} (hk : k < 32) :
    (immI w).getLsbD k = if k < 12 then w.getLsbD (k + 20) else w.getLsbD 31 := by
  rw [immI, getLsbD_sext_of_lt_32 _ hk]
  simp only [getLsbD_field]
  split <;> grind

theorem encI_of_fields : encI (immI w) (rs1Of w) (funct3Of w) (rdOf w) (opcodeOf w) = w := by
  apply BitVec.eq_of_getLsbD_eq
  intro k hk
  simp only [encI, opcodeOf, rdOf, funct3Of, rs1Of, getLsbD_field, BitVec.getLsbD_append]
  grind [getLsbD_immI]

theorem encS_of_fields : encS (immS w) (rs2Of w) (rs1Of w) (funct3Of w) (opcodeOf w) = w := by
  apply BitVec.eq_of_getLsbD_eq
  intro k hk
  simp only [encS, opcodeOf, funct3Of, rs1Of, rs2Of, getLsbD_field, BitVec.getLsbD_append]
  grind [getLsbD_immS]

theorem encB_of_fields : encB (immB w) (rs2Of w) (rs1Of w) (funct3Of w) (opcodeOf w) = w := by
  apply BitVec.eq_of_getLsbD_eq
  intro k hk
  simp only [encB, opcodeOf, funct3Of, rs1Of, rs2Of, getLsbD_field, BitVec.getLsbD_append]
  grind [getLsbD_immB]

theorem encU_of_fields : encU (immU w) (rdOf w) (opcodeOf w) = w := by
  apply BitVec.eq_of_getLsbD_eq
  intro k hk
  simp only [encU, opcodeOf, rdOf, getLsbD_field, BitVec.getLsbD_append]
  grind [getLsbD_immU]

theorem encJ_of_fields : encJ (immJ w) (rdOf w) (opcodeOf w) = w := by
  apply BitVec.eq_of_getLsbD_eq
  intro k hk
  simp only [encJ, opcodeOf, rdOf, getLsbD_field, BitVec.getLsbD_append]
  grind [getLsbD_immJ]

end

/-! ### What the decoder reads is well-formed and encodes back -/

theorem immOk12_immI (w : Word) : immOk12 (immI w) = true := immOk12_sext _

theorem immOkU_immU (w : Word) : immOkU (immU w) = true := immOkU_append _

/-- A decoded instruction is well-formed: its immediate comes from a field of its format (R74 to R78). -/
theorem wf_of_row {cfg : Config} {w : Word} {i : Instr} (h : i.Row cfg w) : i.wf = true := by
  cases i with
  | addi | xori | lw =>
    obtain ⟨-, -, -, -, rfl⟩ := h
    exact immOk12_immI w
  | sw =>
    obtain ⟨-, -, -, -, rfl⟩ := h
    exact immOk12_immS w
  | beq | bne =>
    obtain ⟨-, -, -, -, rfl⟩ := h
    exact immOkB_immB w
  | lui =>
    obtain ⟨-, -, rfl⟩ := h
    exact immOkU_immU w
  | jal =>
    obtain ⟨-, -, rfl⟩ := h
    exact immOkJ_immJ w
  | add | sub | or | and | pmul16 | padd16s | psub16 | psra16 | pack8 | pmac8 | bitrev => rfl

/-- The R-format encoding of a word's row is the word. -/
theorem encR_of_rowR {w : Word} {op f7 : BitVec 7} {f3 : BitVec 3} {rd rs1 rs2 : RegIdx}
    (h : RowR w op f7 f3 rd rs1 rs2) : encR f7 rs2 rs1 f3 rd op = w := by
  obtain ⟨rfl, rfl, rfl, rfl, rfl, rfl⟩ := h
  exact encR_of_fields w

/-- Settles O20: the row of the decoded instruction names every field of the word, and the format's encoding puts them
together again. -/
theorem encodeOfDecodeIsWord : Obligations.EncodeOfDecodeIsWord := by
  intro cfg w i h
  have hrow : i.Row cfg w := decode_row h
  refine ⟨wf_of_row hrow, ?_⟩
  cases i with
  | add | sub | or | and | pmul16 | padd16s | psub16 | psra16 | pack8 | pmac8 => exact encR_of_rowR hrow
  | bitrev =>
    obtain ⟨hop, hf7, hf3, rfl, rfl⟩ := hrow
    rw [← encR_of_fields_no_rs2, hop, hf7, hf3]
    rfl
  | addi | xori | lw =>
    obtain ⟨hop, hf3, rfl, rfl, rfl⟩ := hrow
    rw [encode, ← hop, ← hf3, encI_of_fields]
  | sw =>
    obtain ⟨hop, hf3, rfl, rfl, rfl⟩ := hrow
    rw [encode, ← hop, ← hf3, encS_of_fields]
  | beq | bne =>
    obtain ⟨hop, hf3, rfl, rfl, rfl⟩ := hrow
    rw [encode, ← hop, ← hf3, encB_of_fields]
  | lui =>
    obtain ⟨hop, rfl, rfl⟩ := hrow
    rw [encode, ← hop, encU_of_fields]
  | jal =>
    obtain ⟨hop, rfl, rfl⟩ := hrow
    rw [encode, ← hop, encJ_of_fields]

end Sys2Proof
end

section
/-! What the decoder makes of every word (R74, R80, R81, R83): the I-format immediate, the match/mask table, and the words
no row covers. -/

namespace Sys2Proof

/-- Settles O18: the bit rule of immI, its range, and the rows that carry it. -/
theorem iImmediateFromWordBits : Obligations.IImmediateFromWordBits := by
  intro cfg w
  obtain ⟨hlo, hhi⟩ := immOk12_iff.1 (immOk12_immI w)
  refine ⟨fun _ hk => getLsbD_immI w hk, hlo, hhi, ?_⟩
  rintro rd rs1 imm (h | h | h) <;>
  · obtain ⟨-, -, -, -, himm⟩ := decode_row h
    exact himm

/-! ### The masks of the opcode table (R83) -/

section
variable (w : Word)

/-- The mask of an R-format row keeps funct7, funct3 and the opcode. -/
theorem and_maskR : w &&& 0xFE00707F = encR (funct7Of w) 0 0 (funct3Of w) 0 (opcodeOf w) := by
  have hmask : (0xFE00707F : Word) =
      BitVec.allOnes 7 ++ 0#5 ++ 0#5 ++ BitVec.allOnes 3 ++ 0#5 ++ BitVec.allOnes 7 := by decide
  apply BitVec.eq_of_getLsbD_eq
  intro k hk
  simp only [hmask, encR, opcodeOf, funct3Of, funct7Of, getLsbD_field, BitVec.getLsbD_append, BitVec.getLsbD_and,
    BitVec.getLsbD_allOnes, BitVec.getLsbD_zero]
  grind

/-- The mask of a row without funct7 keeps funct3 and the opcode. -/
theorem and_maskI : w &&& 0x0000707F = encR 0 0 0 (funct3Of w) 0 (opcodeOf w) := by
  have hmask : (0x0000707F : Word) =
      0#7 ++ 0#5 ++ 0#5 ++ BitVec.allOnes 3 ++ 0#5 ++ BitVec.allOnes 7 := by decide
  apply BitVec.eq_of_getLsbD_eq
  intro k hk
  simp only [hmask, encR, opcodeOf, funct3Of, getLsbD_field, BitVec.getLsbD_append, BitVec.getLsbD_and,
    BitVec.getLsbD_allOnes, BitVec.getLsbD_zero]
  grind

/-- The mask of a U- or J-format row keeps the opcode. -/
theorem and_maskU : w &&& 0x0000007F = encR 0 0 0 0 0 (opcodeOf w) := by
  have hmask : (0x0000007F : Word) = 0#7 ++ 0#5 ++ 0#5 ++ 0#3 ++ 0#5 ++ BitVec.allOnes 7 := by decide
  apply BitVec.eq_of_getLsbD_eq
  intro k hk
  simp only [hmask, encR, opcodeOf, getLsbD_field, BitVec.getLsbD_append, BitVec.getLsbD_and,
    BitVec.getLsbD_allOnes, BitVec.getLsbD_zero]
  grind

end

/-- A word is determined by its R-format fields. -/
theorem encR_inj {f7 f7' op op' : BitVec 7} {rs2 rs2' rs1 rs1' rd rd' : RegIdx} {f3 f3' : BitVec 3} :
    encR f7 rs2 rs1 f3 rd op = encR f7' rs2' rs1' f3' rd' op' ↔
      f7 = f7' ∧ rs2 = rs2' ∧ rs1 = rs1' ∧ f3 = f3' ∧ rd = rd' ∧ op = op' := by
  constructor
  · intro h
    obtain ⟨hop, hrd, hf3, hrs1, hrs2, hf7⟩ := encR_fields f7 op rs2 rs1 rd f3
    obtain ⟨hop', hrd', hf3', hrs1', hrs2', hf7'⟩ := encR_fields f7' op' rs2' rs1' rd' f3'
    rw [h] at hop hrd hf3 hrs1 hrs2 hf7
    exact ⟨hf7.symm.trans hf7', hrs2.symm.trans hrs2', hrs1.symm.trans hrs1', hf3.symm.trans hf3',
      hrd.symm.trans hrd', hop.symm.trans hop'⟩
  · rintro ⟨rfl, rfl, rfl, rfl, rfl, rfl⟩
    rfl

section
variable {name : String} {value w : Word} (op f7 : BitVec 7) (f3 : BitVec 3)

/-- An R-format row covers the words with its funct7, funct3 and opcode. -/
theorem covers_maskR_iff (hv : value = encR f7 0 0 f3 0 op) :
    (OpcodeRow.mk name value 0xFE00707F).covers w ↔ opcodeOf w = op ∧ funct7Of w = f7 ∧ funct3Of w = f3 := by
  rw [OpcodeRow.covers, and_maskR, hv, encR_inj]
  tauto

/-- A row without funct7 covers the words with its funct3 and opcode. -/
theorem covers_maskI_iff (hv : value = encR 0 0 0 f3 0 op) :
    (OpcodeRow.mk name value 0x0000707F).covers w ↔ opcodeOf w = op ∧ funct3Of w = f3 := by
  rw [OpcodeRow.covers, and_maskI, hv, encR_inj]
  tauto

/-- A U- or J-format row covers the words with its opcode. -/
theorem covers_maskU_iff (hv : value = encR 0 0 0 0 0 op) :
    (OpcodeRow.mk name value 0x0000007F).covers w ↔ opcodeOf w = op := by
  rw [OpcodeRow.covers, and_maskU, hv, encR_inj]
  tauto

end

/-! ### The table's rows are the decoder's (default parameters, log 7) -/

section
variable {name : String} {value w : Word} {op f7 : BitVec 7} {f3 : BitVec 3}

theorem rowR_of_covers (h : (OpcodeRow.mk name value 0xFE00707F).covers w) (hv : value = encR f7 0 0 f3 0 op) :
    RowR w op f7 f3 (rdOf w) (rs1Of w) (rs2Of w) := by
  obtain ⟨hop, hf7, hf3⟩ := (covers_maskR_iff op f7 f3 hv).1 h
  exact ⟨hop, hf7, hf3, rfl, rfl, rfl⟩

theorem exists_covers_of_fieldsR (name : String) (hop : opcodeOf w = op) (hf7 : funct7Of w = f7)
    (hf3 : funct3Of w = f3) (hmem : ⟨name, encR f7 0 0 f3 0 op, 0xFE00707F⟩ ∈ opcodeTable) :
    ∃ row ∈ opcodeTable, row.covers w :=
  ⟨_, hmem, (covers_maskR_iff op f7 f3 rfl).2 ⟨hop, hf7, hf3⟩⟩

theorem exists_covers_of_rowR (name : String) {rd rs1 rs2 : RegIdx} (h : RowR w op f7 f3 rd rs1 rs2)
    (hmem : ⟨name, encR f7 0 0 f3 0 op, 0xFE00707F⟩ ∈ opcodeTable) : ∃ row ∈ opcodeTable, row.covers w := by
  obtain ⟨hop, hf7, hf3, -⟩ := h
  exact exists_covers_of_fieldsR name hop hf7 hf3 hmem

theorem exists_covers_of_fieldsI (name : String) (hop : opcodeOf w = op) (hf3 : funct3Of w = f3)
    (hmem : ⟨name, encR 0 0 0 f3 0 op, 0x0000707F⟩ ∈ opcodeTable) : ∃ row ∈ opcodeTable, row.covers w :=
  ⟨_, hmem, (covers_maskI_iff op f3 rfl).2 ⟨hop, hf3⟩⟩

theorem exists_covers_of_opcode (name : String) (hop : opcodeOf w = op)
    (hmem : ⟨name, encR 0 0 0 0 0 op, 0x0000007F⟩ ∈ opcodeTable) : ∃ row ∈ opcodeTable, row.covers w :=
  ⟨_, hmem, (covers_maskU_iff op rfl).2 hop⟩

end

/-- A word in an instruction's row is covered by the table's row of that name. -/
theorem exists_covers_of_row {w : Word} {i : Instr} (h : i.Row Config.default w) :
    ∃ row ∈ opcodeTable, row.covers w := by
  cases i with
  | add => exact exists_covers_of_rowR "add" h (by decide)
  | sub => exact exists_covers_of_rowR "sub" h (by decide)
  | or => exact exists_covers_of_rowR "or" h (by decide)
  | and => exact exists_covers_of_rowR "and" h (by decide)
  | pmul16 => exact exists_covers_of_rowR "pmul16" h (by decide)
  | padd16s => exact exists_covers_of_rowR "padd16s" h (by decide)
  | psub16 => exact exists_covers_of_rowR "psub16" h (by decide)
  | psra16 => exact exists_covers_of_rowR "psra16" h (by decide)
  | pack8 => exact exists_covers_of_rowR "pack8" h (by decide)
  | pmac8 => exact exists_covers_of_rowR "pmac8" h (by decide)
  | bitrev =>
    obtain ⟨hop, hf7, hf3, -⟩ := h
    exact exists_covers_of_fieldsR "bitrev" hop hf7 hf3 (by decide)
  | addi =>
    obtain ⟨hop, hf3, -⟩ := h
    exact exists_covers_of_fieldsI "addi" hop hf3 (by decide)
  | xori =>
    obtain ⟨hop, hf3, -⟩ := h
    exact exists_covers_of_fieldsI "xori" hop hf3 (by decide)
  | lw =>
    obtain ⟨hop, hf3, -⟩ := h
    exact exists_covers_of_fieldsI "lw" hop hf3 (by decide)
  | sw =>
    obtain ⟨hop, hf3, -⟩ := h
    exact exists_covers_of_fieldsI "sw" hop hf3 (by decide)
  | beq =>
    obtain ⟨hop, hf3, -⟩ := h
    exact exists_covers_of_fieldsI "beq" hop hf3 (by decide)
  | bne =>
    obtain ⟨hop, hf3, -⟩ := h
    exact exists_covers_of_fieldsI "bne" hop hf3 (by decide)
  | lui => exact exists_covers_of_opcode "lui" h.1 (by decide)
  | jal => exact exists_covers_of_opcode "jal" h.1 (by decide)

/-- A word that a row of the table covers is in the decoder's row of that name. -/
theorem exists_row_of_covers (w : Word) :
    ∀ row ∈ opcodeTable, row.covers w → ∃ i : Instr, i.Row Config.default w ∧ i.mnemonic = row.name := by
  simp only [opcodeTable, List.forall_mem_cons]
  refine ⟨?add, ?sub, ?or, ?and, ?pmul16, ?padd16s, ?psub16, ?psra16, ?pack8, ?addi, ?xori, ?lui, ?lw, ?sw, ?beq,
    ?bne, ?jal, ?pmac8, ?bitrev, ?nil⟩
  case add => exact fun h => ⟨.add _ _ _, rowR_of_covers h rfl, rfl⟩
  case sub => exact fun h => ⟨.sub _ _ _, rowR_of_covers h rfl, rfl⟩
  case or => exact fun h => ⟨.or _ _ _, rowR_of_covers h rfl, rfl⟩
  case and => exact fun h => ⟨.and _ _ _, rowR_of_covers h rfl, rfl⟩
  case pmul16 => exact fun h => ⟨.pmul16 _ _ _, rowR_of_covers h rfl, rfl⟩
  case padd16s => exact fun h => ⟨.padd16s _ _ _, rowR_of_covers h rfl, rfl⟩
  case psub16 => exact fun h => ⟨.psub16 _ _ _, rowR_of_covers h rfl, rfl⟩
  case psra16 => exact fun h => ⟨.psra16 _ _ _, rowR_of_covers h rfl, rfl⟩
  case pack8 => exact fun h => ⟨.pack8 _ _ _, rowR_of_covers h rfl, rfl⟩
  case pmac8 => exact fun h => ⟨.pmac8 _ _ _, rowR_of_covers h rfl, rfl⟩
  case bitrev =>
    intro h
    obtain ⟨hop, hf7, hf3⟩ := (covers_maskR_iff 0x0B 0 1 rfl).1 h
    exact ⟨.bitrev _ _, ⟨hop, hf7, hf3, rfl, rfl⟩, rfl⟩
  case addi =>
    intro h
    obtain ⟨hop, hf3⟩ := (covers_maskI_iff 0x13 0 rfl).1 h
    exact ⟨.addi _ _ _, ⟨hop, hf3, rfl, rfl, rfl⟩, rfl⟩
  case xori =>
    intro h
    obtain ⟨hop, hf3⟩ := (covers_maskI_iff 0x13 4 rfl).1 h
    exact ⟨.xori _ _ _, ⟨hop, hf3, rfl, rfl, rfl⟩, rfl⟩
  case lw =>
    intro h
    obtain ⟨hop, hf3⟩ := (covers_maskI_iff 0x03 2 rfl).1 h
    exact ⟨.lw _ _ _, ⟨hop, hf3, rfl, rfl, rfl⟩, rfl⟩
  case sw =>
    intro h
    obtain ⟨hop, hf3⟩ := (covers_maskI_iff 0x23 2 rfl).1 h
    exact ⟨.sw _ _ _, ⟨hop, hf3, rfl, rfl, rfl⟩, rfl⟩
  case beq =>
    intro h
    obtain ⟨hop, hf3⟩ := (covers_maskI_iff 0x63 0 rfl).1 h
    exact ⟨.beq _ _ _, ⟨hop, hf3, rfl, rfl, rfl⟩, rfl⟩
  case bne =>
    intro h
    obtain ⟨hop, hf3⟩ := (covers_maskI_iff 0x63 1 rfl).1 h
    exact ⟨.bne _ _ _, ⟨hop, hf3, rfl, rfl, rfl⟩, rfl⟩
  case lui => exact fun h => ⟨.lui _ _, ⟨(covers_maskU_iff 0x37 rfl).1 h, rfl, rfl⟩, rfl⟩
  case jal => exact fun h => ⟨.jal _ _, ⟨(covers_maskU_iff 0x6F rfl).1 h, rfl, rfl⟩, rfl⟩
  case nil => exact fun _ h => nomatch h

theorem decode_of_covers {w : Word} {row : OpcodeRow} (hmem : row ∈ opcodeTable) (h : row.covers w) :
    ∃ i, decode Config.default w = .instr i ∧ i.mnemonic = row.name := by
  obtain ⟨i, hrow, hname⟩ := exists_row_of_covers w row hmem h
  exact ⟨i, decode_of_row (by decide) hrow, hname⟩

/-- R81: the word is carried unchanged. -/
theorem raw_of_decode {cfg : Config} {w raw : Word} (h : decode cfg w = .unknown raw) : raw = w := by
  have hsound := decode_sound cfg w
  rwa [h] at hsound

/-- A word in no instruction's row is `Unknown`. -/
theorem decode_of_no_row {cfg : Config} {w : Word} (h : ∀ i : Instr, ¬ i.Row cfg w) : decode cfg w = .unknown w := by
  cases hd : decode cfg w with
  | instr i => exact absurd (decode_row hd) (h i)
  | unknown raw => rw [raw_of_decode hd]

/-- The table names each row once. -/
theorem opcodeTable_name_injective : ∀ row ∈ opcodeTable, ∀ row' ∈ opcodeTable, row.name = row'.name → row = row' := by
  decide

/-- Settles O21: table and decoder have the same rows, and since the decoder answers one instruction and the table names
each row once, no two rows cover one word. -/
theorem decodeAgreesWithOpcodeTable : Obligations.DecodeAgreesWithOpcodeTable := by
  refine ⟨fun w row hmem h => decode_of_covers hmem h, fun w h => decode_of_no_row fun i hi => ?_,
    fun w row hmem row' hmem' h h' => ?_, fun cfg w raw h => raw_of_decode h⟩
  · obtain ⟨row, hmem, hcov⟩ := exists_covers_of_row hi
    exact h row hmem hcov
  · obtain ⟨i, hi, hname⟩ := decode_of_covers hmem h
    obtain ⟨i', hi', hname'⟩ := decode_of_covers hmem' h'
    cases hi.symm.trans hi'
    exact opcodeTable_name_injective row hmem row' hmem' (hname.symm.trans hname')

/-! ### The words no row covers -/

/-- Settles O22, clause by clause: the dispatch on the opcode, then the selectors its table compares. -/
theorem absentInstructionsAreUnknown : Obligations.AbsentInstructionsAreUnknown := by
  intro cfg w
  refine ⟨fun h => ?opcode, fun h h3 => ?width, fun h h30 h31 => ?branch, fun h h30 h34 => ?immediate,
    fun h h7 => ?funct7, fun h h7 h3 => ?base, fun h h7 h3 => ?alternate, fun h h7 h3 => ?packed,
    fun h h7 => ?custom7, fun h h3 => ?custom3⟩
  case opcode =>
    simp only [List.mem_cons, List.not_mem_nil, or_false, not_or] at h
    simp [decode, h]
  case width =>
    obtain h | h := h
    · exact (decode_of_opcode_load cfg h).trans (if_neg h3)
    · exact (decode_of_opcode_store cfg h).trans (if_neg h3)
  case branch => exact (decode_of_opcode_branch cfg h).trans ((if_neg h30).trans (if_neg h31))
  case immediate => exact (decode_of_opcode_opImm cfg h).trans ((if_neg h30).trans (if_neg h34))
  case funct7 =>
    simp only [List.mem_cons, List.not_mem_nil, or_false, not_or] at h7
    simp [decode_of_opcode_op cfg h, decodeOp, h7]
  case base =>
    simp only [List.mem_cons, List.not_mem_nil, or_false, not_or] at h3
    simp [decode_of_opcode_op cfg h, decodeOp, h7, h3]
  case alternate =>
    rw [decode_of_opcode_op cfg h, decodeOp, if_neg (by simp [h7]), if_pos h7, if_neg h3]
  case packed =>
    simp only [List.mem_cons, List.not_mem_nil, or_false, not_or] at h3
    simp [decode_of_opcode_op cfg h, decodeOp, h7, h3]
  case custom7 => exact (decode_of_opcode_custom0 cfg h).trans (if_neg h7)
  case custom3 =>
    simp only [List.mem_cons, List.not_mem_nil, or_false, not_or] at h3
    simp [decode_of_opcode_custom0 cfg h, decodeCustom0, h3]

/-- Settles O23: the decoder evaluated on each word. -/
theorem sampleWordsDecode : Obligations.SampleWordsDecode := by
  refine ⟨?_, ?_, ?_, ?_, ?_, ?_, ?_, ?_, ?_, ?_, ?_⟩ <;> decide

end Sys2Proof
end

section
/-! What each instruction answers: result and frame (40_alu_base.md to 43_packed.md). An instruction of one destination
register is `retire` of its value, so its frame is proved once, for `retire`. -/

namespace Sys2Proof.Machine

/-! ### The frame of `retire` -/

/-- R22, R23, R170: an instruction that ends in `retire` completes with the frame of `Retires`. -/
theorem retires_of_eq_retire {i : Instr} {s : State} {rd : RegIdx} {v : Word} (h : exec i s = s.retire rd v) :
    Retires i s rd v := by
  refine ⟨_, h, fun r => State.readReg_retire rfl r, ?pc, fun a => ?mem, ?cfg, ?run, ?diags⟩
  all_goals simp

/-- What `retire` leaves in its own destination. -/
theorem readReg_retire_dest {s t : State} {rd : RegIdx} {v : Word} (h : s.retire rd v = .next t) :
    t.readReg rd = if rd = 0 then 0 else v := by
  rw [State.readReg_retire h]
  by_cases hrd : rd = 0
  · subst hrd; rfl
  · rw [if_pos ⟨rfl, hrd⟩, if_neg hrd]

/-- The difference modulo 2^32 is the exact signed difference modulo 2^32 (R117). -/
theorem ofInt_toInt_sub_toInt (a b : Word) : BitVec.ofInt 32 (a.toInt - b.toInt) = a - b := by
  rw [Int.sub_eq_add_neg, BitVec.ofInt_add, BitVec.ofInt_neg, BitVec.ofInt_toInt, BitVec.ofInt_toInt,
    BitVec.sub_eq_add_neg]

/-- Settles O24: each is `retire` of its value, and the 32-bit sum and difference are the exact ones modulo 2^32. -/
theorem baseArithmeticResults : Obligations.BaseArithmeticResults := by
  intro s rd rs1 rs2 imm
  simp only [BitVec.ofInt_add, BitVec.ofInt_toInt, ofInt_toInt_sub_toInt]
  exact ⟨retires_of_eq_retire rfl, retires_of_eq_retire rfl, retires_of_eq_retire rfl, retires_of_eq_retire rfl,
    retires_of_eq_retire rfl, retires_of_eq_retire rfl, retires_of_eq_retire rfl⟩

/-! ### Loads and stores -/

/-- Settles O25: in bounds, lw is `retire` of the word at EA. -/
theorem loadWordResult : Obligations.LoadWordResult :=
  fun _ _ _ _ hb => ⟨rfl, retires_of_eq_retire (execLw_of_inBounds hb)⟩

/-- Settles O26: in bounds, sw changes memory and the pc only, and memory by the rule of a word write. -/
theorem storeWordResult : Obligations.StoreWordResult := by
  intro s rs1 rs2 imm hb
  have hsw : exec (.sw rs1 rs2 imm) s = _ := execSw_of_inBounds hb
  exact ⟨rfl, _, hsw, fun _ => rfl, rfl, ⟨rfl, rfl, rfl⟩, read_mem_of_exec_sw hb hsw⟩

/-- R51, R52: a word write followed by a word read of the same address. -/
@[simp] theorem Memory.read32_write32_self (m : Memory) (a : Nat) (v : Word) :
    Memory.read32 (Memory.write32 m a v) a = v := by
  simp [Memory.read32, Memory.read_write32, leWord_leByte]

/-- An in-bounds sw writes its word at EA, advances the pc and does nothing else. -/
theorem eq_of_exec_sw {s t : State} {rs1 rs2 : RegIdx} {imm : Word}
    (hb : (s.effAddr rs1 imm).toNat + 4 ≤ s.cfg.memSize) (h : exec (.sw rs1 rs2 imm) s = .next t) :
    t = { s with mem := s.mem.write32 (s.effAddr rs1 imm).toNat (s.readReg rs2), pc := s.pc + 4 } := by
  cases (execSw_of_inBounds hb).symm.trans h
  rfl

/-- Settles O27: the load's address is the stored one, and a word read after a word write gives the word. -/
theorem storeThenLoadReturnsValue : Obligations.StoreThenLoadReturnsValue := by
  intro s t rs1 rs2 rd rb imm off hb h haddr
  have ht := eq_of_exec_sw hb h
  have hload : t.effAddr rb off = s.effAddr rs1 imm := haddr
  have hlw : exec (.lw rd rb off) t = t.retire rd (s.readReg rs2) := by
    refine (execLw_of_inBounds (hload ▸ ht ▸ hb)).trans ?_
    rw [hload, ht, Memory.read32_write32_self]
  exact ⟨_, hlw, readReg_retire_dest rfl⟩

/-- Settles O14: byte `k` of the load is the byte of memory at its address plus `k`, which the store wrote or left. -/
theorem overlappingLoadSeesLastBytes : Obligations.OverlappingLoadSeesLastBytes := by
  intro s t rs1 rs2 rd rb imm off hb h hrd hb'
  have hlw : exec (.lw rd rb off) t = _ := execLw_of_inBounds hb'
  refine ⟨_, hlw, fun k hk => ?_⟩
  exact (leByte_readReg_of_exec_lw hrd hb' hlw hk).trans (read_mem_of_exec_sw hb h _)

/-- Settles O13: both meanings raise the halt when their access is out of bounds, with the same EA. -/
theorem outOfBoundsAccessHalts : Obligations.OutOfBoundsAccessHalts :=
  fun _ _ _ _ _ h => ⟨execLw_of_outOfBounds h, execSw_of_outOfBounds h⟩

/-! ### Control transfer -/

/-- R141, R142, R170: a branch changes the pc only. -/
theorem applyEffect_branchEffect (s : State) (taken : Bool) (imm : Word) :
    s.applyEffect (s.branchEffect taken imm) = { s with pc := if taken then s.pc + imm else s.pc + 4 } := by
  cases taken <;> rfl

theorem exec_beq (rs1 rs2 : RegIdx) (imm : Word) (s : State) :
    exec (.beq rs1 rs2 imm) s =
      .next { s with pc := if s.condEq rs1 rs2 then s.pc + imm else s.pc + 4 } :=
  congrArg Host.Outcome.next (applyEffect_branchEffect s _ imm)

theorem exec_bne (rs1 rs2 : RegIdx) (imm : Word) (s : State) :
    exec (.bne rs1 rs2 imm) s =
      .next { s with pc := if s.condNe rs1 rs2 then s.pc + imm else s.pc + 4 } :=
  congrArg Host.Outcome.next (applyEffect_branchEffect s _ imm)

theorem exec_jal (rd : RegIdx) (imm : Word) (s : State) :
    exec (.jal rd imm) s = .next { s.writeReg rd (s.pc + 4) with pc := s.pc + imm } := rfl

/-- Settles O28: a branch changes the pc only, by the condition on its two registers. -/
theorem branchResults : Obligations.BranchResults := by
  intro s rs1 rs2 imm
  rw [exec_beq, exec_bne]
  simp [State.condEq, State.condNe]

/-- Settles O29: jal writes the link register and the pc, both from its own pc. -/
theorem jumpAndLinkResult : Obligations.JumpAndLinkResult := by
  intro s rd imm
  refine ⟨_, exec_jal rd imm s, fun r => ?regs, rfl, fun a => ?mem, ?cfg, ?run, ?diags⟩
  case regs => exact State.readReg_writeReg s rd r (s.pc + 4)
  all_goals simp

end Sys2Proof.Machine
end

section
/-! The packed instructions (43_packed.md): each is `retire` of a value whose lanes, bytes or bits are given by the rule
of its lane operation. -/

namespace Sys2Proof.Machine

/-! ### The lane operations (R152 to R155) -/

/-- R152: the low 16 bits of a product do not depend on the sign. -/
theorem mulLane_eq_mul (a b : Half) : mulLane a b = a * b := by
  rw [mulLane, BitVec.ofInt_mul, BitVec.ofInt_toInt, BitVec.ofInt_toInt]

theorem toNat_mulLane_unsigned (a b : Half) : (mulLane a b).toNat = a.toNat * b.toNat % 65536 := by
  rw [mulLane_eq_mul, BitVec.toNat_mul]

/-- R153, C5. -/
theorem toInt_addsLane (a b : Half) : (addsLane a b).toInt = max (-32768) (min 32767 (a.toInt + b.toInt)) :=
  toInt_sat16 _

/-- R154. -/
theorem toNat_subLane (a b : Half) : ((subLane a b).toNat : Int) = ((a.toNat : Int) - b.toNat) % 65536 := by
  rw [subLane, BitVec.toNat_sub]
  omega

/-- R155. -/
theorem toInt_sraLane_sraAmount (v : Word) (a : Half) :
    (sraLane (sraAmount v) a).toInt = a.toInt / 2 ^ (v.toNat % 16) := by
  rw [toInt_sraLane, toNat_sraAmount]
  norm_cast

/-- Settles O31: lane by lane, the signed and the unsigned value of the lane product. -/
theorem packedMultiplyLanes : Obligations.PackedMultiplyLanes := by
  refine fun s rd rs1 rs2 => ⟨_, retires_of_eq_retire rfl, ?_⟩
  rw [h0_lanes16, h1_lanes16]
  exact ⟨toNat_mulLane _ _, toNat_mulLane _ _, toNat_mulLane_unsigned _ _, toNat_mulLane_unsigned _ _⟩

/-- Settles O32: lane by lane, the saturated sum. -/
theorem packedSaturatingAddLanes : Obligations.PackedSaturatingAddLanes := by
  refine fun s rd rs1 rs2 => ⟨_, retires_of_eq_retire rfl, ?_⟩
  rw [h0_lanes16, h1_lanes16]
  exact ⟨toInt_addsLane _ _, toInt_addsLane _ _⟩

/-- Settles O33: lane by lane, the wrapping difference. -/
theorem packedSubtractLanes : Obligations.PackedSubtractLanes := by
  refine fun s rd rs1 rs2 => ⟨_, retires_of_eq_retire rfl, ?_⟩
  rw [h0_lanes16, h1_lanes16]
  exact ⟨toNat_subLane _ _, toNat_subLane _ _⟩

/-- Settles O34: lane by lane, the arithmetic shift as a floor division. -/
theorem packedShiftLanes : Obligations.PackedShiftLanes := by
  refine fun s rd rs1 rs2 => ⟨_, retires_of_eq_retire rfl, ?_⟩
  rw [h0_pack16, h1_pack16]
  exact ⟨toInt_sraLane_sraAmount _ _, toInt_sraLane_sraAmount _ _⟩

/-- R150: a lane of what `retire` leaves in the destination depends on the same lane of the value only. -/
theorem lane_readReg_retire_congr {s s' t t' : State} {rd : RegIdx} {v v' : Word} (lane : Word → Half)
    (h : s.retire rd v = .next t) (h' : s'.retire rd v' = .next t') (hlane : lane v = lane v') :
    lane (t.readReg rd) = lane (t'.readReg rd) := by
  rw [readReg_retire_dest h, readReg_retire_dest h']
  split
  · rfl
  · exact hlane

/-- R150: a two-lane operation, run on two states, gives the same lane for the same lanes. -/
theorem lanes16_independent {s s' t t' : State} {rd rs1 rs2 : RegIdx} (f : Half → Half → Half)
    (h : s.retire rd (lanes16 f (s.readReg rs1) (s.readReg rs2)) = .next t)
    (h' : s'.retire rd (lanes16 f (s'.readReg rs1) (s'.readReg rs2)) = .next t') :
    (h0 (s.readReg rs1) = h0 (s'.readReg rs1) → h0 (s.readReg rs2) = h0 (s'.readReg rs2) →
      h0 (t.readReg rd) = h0 (t'.readReg rd)) ∧
    (h1 (s.readReg rs1) = h1 (s'.readReg rs1) → h1 (s.readReg rs2) = h1 (s'.readReg rs2) →
      h1 (t.readReg rd) = h1 (t'.readReg rd)) := by
  refine ⟨fun e1 e2 => lane_readReg_retire_congr h0 h h' ?_, fun e1 e2 => lane_readReg_retire_congr h1 h h' ?_⟩
  · rw [h0_lanes16, h0_lanes16, e1, e2]
  · rw [h1_lanes16, h1_lanes16, e1, e2]

/-- Settles O39: pmul16, padd16s and psub16 are two-lane operations, and psra16 shifts each lane by the one amount. -/
theorem packedLanesAreIndependent : Obligations.PackedLanesAreIndependent := by
  intro s s' t t' rd rs1 rs2
  refine ⟨?two, fun h h' hamount => ?shift⟩
  case two =>
    simp only [List.forall_mem_cons]
    exact ⟨lanes16_independent mulLane, lanes16_independent addsLane, lanes16_independent subLane,
      fun _ hop => nomatch hop⟩
  case shift =>
    have hsh : sraAmount (s.readReg rs2) = sraAmount (s'.readReg rs2) := by
      apply BitVec.eq_of_toNat_eq
      rw [toNat_sraAmount, toNat_sraAmount, hamount]
    refine ⟨fun e => lane_readReg_retire_congr h0 h h' ?_, fun e => lane_readReg_retire_congr h1 h h' ?_⟩
    · rw [h0_pack16, h0_pack16, hsh, e]
    · rw [h1_pack16, h1_pack16, hsh, e]

/-! ### Bytes (R156, R157) -/

/-- R156, D25: four bytes put together as `interleaveBytes` does, taken apart again. -/
theorem byteLane_append (b0 b1 b2 b3 : Byte) :
    byteLane (b3 ++ b2 ++ b1 ++ b0) 0 = b0 ∧ byteLane (b3 ++ b2 ++ b1 ++ b0) 1 = b1 ∧
    byteLane (b3 ++ b2 ++ b1 ++ b0) 2 = b2 ∧ byteLane (b3 ++ b2 ++ b1 ++ b0) 3 = b3 :=
  leByte_leWord b0 b1 b2 b3

/-- Settles O35: the four bytes of `interleaveBytes`. -/
theorem bytePackLanes : Obligations.BytePackLanes :=
  fun _ _ _ _ => ⟨_, retires_of_eq_retire rfl, byteLane_append ..⟩

theorem toInt_byte_bounds (b : Byte) : -128 ≤ b.toInt ∧ b.toInt ≤ 127 := by
  have hle := BitVec.le_toInt b
  have hlt := BitVec.toInt_lt (x := b)
  omega

/-- R157: a product of two signed bytes lies between -128 * 127 and (-128) * (-128), since the distances of the factors
from their bounds have non-negative products. -/
theorem byteProduct_bounds (a b : Word) (i : Nat) : -16256 ≤ byteProduct a b i ∧ byteProduct a b i ≤ 16384 := by
  obtain ⟨hxlo, hxhi⟩ := toInt_byte_bounds (byteLane a i)
  obtain ⟨hylo, hyhi⟩ := toInt_byte_bounds (byteLane b i)
  unfold byteProduct
  generalize (byteLane a i).toInt = x at *
  generalize (byteLane b i).toInt = y at *
  have hupper := mul_nonneg (sub_nonneg.2 hxhi) (sub_nonneg.2 hyhi)
  have hlower := mul_nonneg (sub_nonneg.2 hxlo) (sub_nonneg.2 hylo)
  have hmixed := mul_nonneg (sub_nonneg.2 hxlo) (sub_nonneg.2 hyhi)
  have hmixed' := mul_nonneg (sub_nonneg.2 hxhi) (sub_nonneg.2 hylo)
  constructor <;> linarith

theorem byteDot_bounds (a b : Word) : -65024 ≤ byteDot a b ∧ byteDot a b ≤ 65536 := by
  have h0 := byteProduct_bounds a b 0
  have h1 := byteProduct_bounds a b 1
  have h2 := byteProduct_bounds a b 2
  have h3 := byteProduct_bounds a b 3
  unfold byteDot
  omega

theorem byteDot_eq_sum (a b : Word) : byteDot a b = ∑ i ∈ Finset.range 4, byteProduct a b i := by
  simp only [byteDot, Finset.sum_range_succ, Finset.sum_range_zero, zero_add]

/-- Adding an exact integer to a word, modulo 2^32. -/
theorem toNat_add_ofInt (a : Word) (d : Int) : ((a + BitVec.ofInt 32 d).toNat : Int) = (a.toNat + d) % 2 ^ 32 := by
  rw [BitVec.toNat_add, BitVec.toNat_ofInt]
  omega

/-- Settles O36: the accumulated value is the exact sum of products, which lies in the range of R157. -/
theorem multiplyAccumulateBytes : Obligations.MultiplyAccumulateBytes := by
  intro s rd rs1 rs2
  obtain ⟨hlo, hhi⟩ := byteDot_bounds (s.readReg rs1) (s.readReg rs2)
  exact ⟨_, byteDot (s.readReg rs1) (s.readReg rs2), retires_of_eq_retire rfl, byteDot_eq_sum _ _, hlo, hhi,
    toNat_add_ofInt _ _⟩

/-! ### Bit reversal (R158) -/

/-- Settles O37, by the bit rule of `reverseBits`. -/
theorem bitReversalResult : Obligations.BitReversalResult :=
  fun _ _ _ => ⟨_, retires_of_eq_retire rfl, fun _ hk => getLsbD_reverseBits _ _ hk⟩

/-- The mask of a butterfly swap marks the lower group of each pair: the partner `k ^^^ stride` of a marked bit lies
`stride` above it, and that of any other bit `stride` below it, where the mask marks it. -/
def MarksLowerGroups (stride : Nat) (mask : Word) : Prop :=
  ∀ k < 32,
    if mask.getLsbD k then k ^^^ stride = stride + k ∧ (k < stride ∨ mask.getLsbD (k - stride) = false)
    else stride ≤ k ∧ k ^^^ stride = k - stride ∧ mask.getLsbD (k - stride) = true

/-- A butterfly swap exchanges every bit with its partner. -/
theorem getLsbD_butterfly {stride : Nat} {mask : Word} (hm : MarksLowerGroups stride mask) (v : Word) {k : Nat}
    (hk : k < 32) : (butterfly stride mask v).getLsbD k = v.getLsbD (k ^^^ stride) := by
  have h := hm k hk
  simp only [butterfly, BitVec.getLsbD_or, BitVec.getLsbD_and, BitVec.getLsbD_ushiftRight, BitVec.getLsbD_shiftLeft]
  split at h
  case isTrue hmask =>
    obtain ⟨hpartner, hlow | hlow⟩ := h
    · simp [-BitVec.getLsbD_eq_getElem, hmask, hpartner, hlow]
    · simp [-BitVec.getLsbD_eq_getElem, hmask, hpartner, hlow]
  case isFalse hmask =>
    obtain ⟨hle, hpartner, hlow⟩ := h
    simp [-BitVec.getLsbD_eq_getElem, hmask, hpartner, hlow, hk, hle]

/-- The five swaps send bit `k` to the bit with all five index bits inverted. -/
theorem getLsbD_butterflyReverse (v : Word) {k : Nat} (hk : k < 32) :
    (butterflyReverse v).getLsbD k = v.getLsbD (31 - k) := by
  have hrange : ∀ stride ∈ [1, 2, 4, 8, 16], ∀ k < 32, k ^^^ stride < 32 := by decide
  have hinvert : ∀ k < 32, k ^^^ 1 ^^^ 2 ^^^ 4 ^^^ 8 ^^^ 16 = 31 - k := by decide
  have h1 : k ^^^ 1 < 32 := hrange 1 (by decide) _ hk
  have h2 : k ^^^ 1 ^^^ 2 < 32 := hrange 2 (by decide) _ h1
  have h4 : k ^^^ 1 ^^^ 2 ^^^ 4 < 32 := hrange 4 (by decide) _ h2
  have h8 : k ^^^ 1 ^^^ 2 ^^^ 4 ^^^ 8 < 32 := hrange 8 (by decide) _ h4
  unfold butterflyReverse
  rw [getLsbD_butterfly (by unfold MarksLowerGroups; decide) _ hk,
    getLsbD_butterfly (by unfold MarksLowerGroups; decide) _ h1,
    getLsbD_butterfly (by unfold MarksLowerGroups; decide) _ h2,
    getLsbD_butterfly (by unfold MarksLowerGroups; decide) _ h4,
    getLsbD_butterfly (by unfold MarksLowerGroups; decide) _ h8, hinvert k hk]

theorem butterflyReverse_eq_reverseBits (v : Word) : butterflyReverse v = reverseBits v := by
  apply BitVec.eq_of_getLsbD_eq
  intro k hk
  rw [getLsbD_butterflyReverse v hk, getLsbD_reverseBits v k hk]

theorem reverseBits_reverseBits (v : Word) : reverseBits (reverseBits v) = v := by
  apply BitVec.eq_of_getLsbD_eq
  intro k hk
  have hback : 31 - (31 - k) = k := by omega
  rw [getLsbD_reverseBits _ k hk, getLsbD_reverseBits v (31 - k) (by omega), hback]

theorem readReg_of_exec_bitrev {s t : State} {rd rs1 : RegIdx} (hrd : rd ≠ 0)
    (h : exec (.bitrev rd rs1) s = .next t) : t.readReg rd = reverseBits (s.readReg rs1) :=
  (readReg_retire_dest h).trans (if_neg hrd)

/-- Settles O38: butterfly and reversal agree bit by bit, and a bit reversed twice is back in its place. -/
theorem bitReversalIsButterflyAndInvolution : Obligations.BitReversalIsButterflyAndInvolution := by
  refine ⟨butterflyReverse_eq_reverseBits, fun s t u rd rd' rs1 hrd hrd' h h' => ?_⟩
  rw [readReg_of_exec_bitrev hrd' h', readReg_of_exec_bitrev hrd h, reverseBits_reverseBits]

end Sys2Proof.Machine
end

section
/-! Sign extension (R11), word access (R13, R55), the canonical form of memory (log 6), and register access (R12, R21 to
R23). -/

namespace Sys2Proof

/-- A field shifted to the top of a word and back with its sign is the field below and its top bit above (R11). -/
theorem sext_eq_shifts {n : Nat} (f : BitVec n) (hpos : 0 < n) (hn : n ≤ 32) :
    sext f = ((f.setWidth 32) <<< (32 - n)).sshiftRight (32 - n) := by
  have hmsb : ((f.setWidth 32) <<< (32 - n)).msb = f.getLsbD (n - 1) := by
    have htop : 31 - (32 - n) = n - 1 := by omega
    rw [BitVec.msb_eq_getLsbD_last, BitVec.getLsbD_shiftLeft, BitVec.getLsbD_setWidth, htop,
      decide_eq_true (show n - 1 < 32 by omega), decide_eq_false (show ¬ 31 < 32 - n by omega)]
    rfl
  apply BitVec.eq_of_getLsbD_eq
  intro k hk
  rw [getLsbD_sext_of_lt_32 f hk, BitVec.getLsbD_sshiftRight, hmsb, decide_eq_false (Nat.not_le.2 hk)]
  by_cases h : k < n
  · have hin : 32 - n + k < 32 := by omega
    simp [-BitVec.getLsbD_eq_getElem, h, hin, hk]
  · have hout : ¬ 32 - n + k < 32 := by omega
    simp [-BitVec.getLsbD_eq_getElem, h, hout]

/-- Settles O9: the two parts of the bit rule of `sext`, and the shifts. -/
theorem signExtensionCopiesTopBit : Obligations.SignExtensionCopiesTopBit := by
  refine fun n f hpos hn => ⟨fun k hk => ?_, fun k hk hk32 => ?_, sext_eq_shifts f hpos hn⟩
  · rw [getLsbD_sext_of_lt_32 f (hk.trans_le hn), if_pos hk]
  · rw [getLsbD_sext_of_lt_32 f hk32, if_neg (Nat.not_lt.2 hk)]

end Sys2Proof

namespace Sys2Proof.Machine

/-! ### Memory -/

/-- R13, R52: the four bytes of a word write, one by one. -/
theorem Memory.read_write32_bytes (m : Memory) (a c : Nat) (v : Word) :
    Memory.read (Memory.write32 m a v) c =
      if c = a then leByte v 0 else if c = a + 1 then leByte v 1 else if c = a + 2 then leByte v 2
      else if c = a + 3 then leByte v 3 else Memory.read m c := by
  rw [Memory.read_write32]
  by_cases hin : a ≤ c ∧ c < a + 4
  · obtain ⟨k, hk, rfl⟩ : ∃ k < 4, c = a + k := ⟨c - a, by omega, by omega⟩
    rw [if_pos hin, Nat.add_sub_cancel_left]
    interval_cases k <;> simp
  · rw [if_neg hin, if_neg (by omega), if_neg (by omega), if_neg (by omega), if_neg (by omega)]

/-- Settles O10: the byte rule of a word write, and when the two access operations answer. -/
theorem wordAccessIsFourBytes : Obligations.WordAccessIsFourBytes :=
  ⟨fun _ _ => rfl, Memory.read_write32_bytes,
    fun _ _ _ h => ⟨State.loadWord_eq_none.2 h, State.storeWord_eq_none.2 h⟩,
    fun _ _ _ h => ⟨State.loadWord_eq_some.2 ⟨h, rfl⟩, State.storeWord_eq_some.2 ⟨h, rfl⟩⟩⟩

/-- A canonical memory reads at the address of a cell what the cell holds. -/
theorem Memory.read_of_mem {m : Memory} (hm : m.Pairwise fun c d => c.1 < d.1) {c : Host.Cell} (hc : c ∈ m) :
    Memory.read m c.1 = c.2 := by
  induction m with
  | nil => cases hc
  | cons d m ih =>
    obtain ⟨hd, hm'⟩ := List.pairwise_cons.1 hm
    rcases List.mem_cons.1 hc with rfl | hc'
    · exact if_pos rfl
    · exact (if_neg (hd c hc').ne).trans (ih hm' hc')

/-- An address that does not read as an unlisted one has a cell with what it reads. -/
theorem Memory.mem_of_read_ne {m : Memory} {a : Nat} (h : Memory.read m a ≠ Memory.unlisted) :
    (a, Memory.read m a) ∈ m := by
  induction m with
  | nil => exact absurd rfl h
  | cons d m ih =>
    by_cases hd : d.1 = a
    · have hread : Memory.read (d :: m) a = d.2 := if_pos hd
      rw [hread, ← hd]
      exact List.mem_cons_self
    · have hread : Memory.read (d :: m) a = Memory.read m a := if_neg hd
      rw [hread] at h ⊢
      exact List.mem_cons_of_mem d (ih h)

/-- The cells of a canonical memory are the addresses that do not read as unlisted, with what they read. -/
theorem Memory.mem_iff_read {m : Memory} (hm : Memory.wf m = true) (c : Host.Cell) :
    c ∈ m ↔ c.2 ≠ Memory.unlisted ∧ Memory.read m c.1 = c.2 := by
  obtain ⟨hrising, hlisted⟩ := (Memory.wf_iff m).1 hm
  refine ⟨fun hc => ⟨hlisted c hc, Memory.read_of_mem hrising hc⟩, fun ⟨hne, hread⟩ => ?_⟩
  rw [← hread] at hne
  have hmem := Memory.mem_of_read_ne hne
  rwa [hread] at hmem

/-- Settles O12: memories that read alike have the same cells, and a strictly rising list is determined by its cells. -/
theorem canonicalMemoryIsDetermined : Obligations.CanonicalMemoryIsDetermined := by
  intro m m' hm hm' hread
  have : Std.Antisymm fun c d : Host.Cell => c.1 < d.1 := ⟨fun _ _ h h' => absurd h' h.asymm⟩
  have : Std.Irrefl fun c d : Host.Cell => c.1 < d.1 := ⟨fun c => lt_irrefl c.1⟩
  refine ((Memory.wf_iff m).1 hm).1.eq_of_mem_iff ((Memory.wf_iff m').1 hm').1 fun c => ?_
  rw [Memory.mem_iff_read hm, Memory.mem_iff_read hm', hread]

/-! ### Registers -/

/-- An instruction that answers leaves the register vector, or writes the destination it names (R22, R23). -/
theorem regs_of_exec {i : Instr} {s t : State} (h : exec i s = .next t) :
    t.regs = s.regs ∨ ∃ rd v, i.dest? = some rd ∧ t.regs = (s.writeReg rd v).regs := by
  cases i with
  | lw rd rs1 imm =>
    by_cases hb : (s.effAddr rs1 imm).toNat + 4 ≤ s.cfg.memSize
    · cases (execLw_of_inBounds hb).symm.trans h
      exact .inr ⟨rd, _, rfl, State.applyEffect_regs _ _⟩
    · cases (execLw_of_outOfBounds (Nat.not_le.1 hb)).symm.trans h
      exact .inl rfl
  | sw rs1 rs2 imm =>
    by_cases hb : (s.effAddr rs1 imm).toNat + 4 ≤ s.cfg.memSize
    · cases (execSw_of_inBounds hb).symm.trans h
      exact .inl rfl
    · cases (execSw_of_outOfBounds (Nat.not_le.1 hb)).symm.trans h
      exact .inl rfl
  | beq | bne =>
    cases h
    exact .inl (State.applyEffect_regs _ _)
  | jal rd =>
    cases h
    exact .inr ⟨rd, _, rfl, State.applyEffect_regs _ _⟩
  | add rd | sub rd | or rd | and rd | pmul16 rd | padd16s rd | psub16 rd | psra16 rd | pack8 rd | addi rd
  | xori rd | lui rd | pmac8 rd | bitrev rd =>
    cases h
    exact .inr ⟨rd, _, rfl, State.applyEffect_regs _ _⟩

/-- R22: a register the instruction does not name as destination keeps its value. -/
theorem readReg_of_exec {i : Instr} {s t : State} (h : exec i s = .next t) {r : RegIdx} (hr : i.dest? ≠ some r) :
    t.readReg r = s.readReg r := by
  obtain hregs | ⟨rd, v, hdest, hregs⟩ := regs_of_exec h
  · exact State.readReg_congr hregs r
  · have hne : r ≠ rd := fun e => hr (e ▸ hdest)
    rw [State.readReg_congr hregs, State.readReg_writeReg, if_neg fun hrd => hne hrd.1]

theorem execUnknown_regs {raw : Word} {s t : State} (h : execUnknown raw s = .next t) : t.regs = s.regs := by
  obtain ⟨-, hhalt⟩ | ⟨-, hnext⟩ := execUnknown_cases raw s
  · cases hhalt.symm.trans h
    rfl
  · cases hnext.symm.trans h
    rfl

/-- Settles O7: a step changes registers only through the instruction it executes. -/
theorem onlyNamedRegisterChanges : Obligations.OnlyNamedRegisterChanges := by
  refine ⟨fun i s t h r hr => readReg_of_exec h hr, fun s t h r hr => ?_⟩
  obtain ⟨-, ⟨reason, -, rfl⟩ | ⟨w, hf, ⟨i, hd, hi⟩ | ⟨raw, -, hu⟩⟩⟩ := step_cases h
  · exact State.readReg_congr rfl r
  · exact readReg_of_exec hi (hr w i hf hd)
  · exact State.readReg_congr (execUnknown_regs hu) r

/-- R12: retiring to x0 advances the pc and does nothing else. -/
theorem retire_zero (s : State) (v : Word) : s.retire 0 v = .next { s with pc := s.pc + 4 } := rfl

/-- R131: a load to x0 still tests its bounds. -/
theorem exec_lw_zero (rs1 : RegIdx) (imm : Word) (s : State) :
    exec (.lw 0 rs1 imm) s = .next (if s.cfg.memSize < (s.effAddr rs1 imm).toNat + 4 then
        { s with run := .halted (.dataOutOfBounds (s.effAddr rs1 imm)) } else { s with pc := s.pc + 4 }) := by
  split
  case isTrue hout => exact execLw_of_outOfBounds hout
  case isFalse hin => exact (execLw_of_inBounds (Nat.not_lt.1 hin)).trans (retire_zero ..)

/-- Settles O6: the register laws, and for a destination x0 the discarded write of each meaning. -/
theorem registerAccessAndZeroSink : Obligations.RegisterAccessAndZeroSink := by
  refine ⟨State.readReg_zero, fun s i hi => s.readReg_of_ne hi, fun s i v hi => ⟨?_, fun j hj => ?_⟩,
    State.writeReg_zero, fun i s hdest => ?_⟩
  · rw [State.readReg_writeReg, if_pos ⟨rfl, hi⟩]
  · rw [State.readReg_writeReg, if_neg fun h => hj h.1]
  · cases i with
    | lw rd rs1 imm =>
      cases hdest
      exact exec_lw_zero rs1 imm s
    | sw | beq | bne => cases hdest
    | jal | add | sub | or | and | pmul16 | padd16s | psub16 | psra16 | pack8 | addi | xori | lui | pmac8 | bitrev =>
      cases hdest
      rfl

end Sys2Proof.Machine
end

section
/-! What a step can do (44_sequencer.md, 60_exceptions.md): when it is enabled, what it executes, and which part of the
state it leaves alone, from `step_cases` and `exec_cases`. -/

namespace Sys2Proof.Machine

/-! ### Every instruction and every running machine has a next state -/

theorem exec_answers (i : Instr) (s : State) : ∃ t, exec i s = .next t := by
  obtain ⟨rd, v, h⟩ | ⟨rs1, rs2, imm, -, -, h⟩ | ⟨rs1, imm, -, -, h⟩ := exec_cases i s
  all_goals exact ⟨_, h⟩

theorem execUnknown_answers (raw : Word) (s : State) : ∃ t, execUnknown raw s = .next t := by
  obtain ⟨-, h⟩ | ⟨-, h⟩ := execUnknown_cases raw s
  all_goals exact ⟨_, h⟩

/-- Settles O52: a running machine halts at the fetch or executes the decoded word, which always answers. -/
theorem runningMachineAlwaysSteps : Obligations.RunningMachineAlwaysSteps := by
  intro s hrun
  cases hf : s.fetch with
  | error reason => exact ⟨_, step_of_fetch_error hrun hf⟩
  | ok w =>
    cases hd : decode s.cfg w with
    | instr i =>
      rw [step_of_instr hrun hf hd]
      exact exec_answers i s
    | unknown raw =>
      rw [step_of_unknown hrun hf hd]
      exact execUnknown_answers raw s

/-- Settles O51: the one case of `exec_cases` that writes `run` is a load or store out of bounds. -/
theorem everyInstructionCompletes : Obligations.EveryInstructionCompletes := by
  intro i s hin
  obtain ⟨rd, v, h⟩ | ⟨rs1, rs2, imm, -, -, h⟩ | ⟨rs1, imm, hi, hout, -⟩ := exec_cases i s
  · exact ⟨_, h, by simp, by simp, by simp⟩
  · exact ⟨_, h, rfl, rfl, rfl⟩
  · obtain ⟨rd, rfl⟩ | ⟨rs2, rfl⟩ := hi
    all_goals exact absurd hin (Nat.not_le.2 hout)

/-! ### What is executed -/

/-- Settles O41: under these conditions the fetch answers the word at the pc. -/
theorem stepRunsDecodedInstruction : Obligations.StepRunsDecodedInstruction := by
  intro s hrun hb halign
  have hf : s.fetch = .ok (s.mem.read32 s.pc.toNat) := State.fetch_eq_ok.2 ⟨hb, halign, rfl⟩
  exact ⟨fun i hd => step_of_instr hrun hf hd, fun raw hd => step_of_unknown hrun hf hd⟩

/-- A word placed at a pc that the fetch accepts is the word fetched. -/
theorem State.fetch_placeWord {s : State} (hb : s.pc.toNat + 4 ≤ s.cfg.memSize)
    (halign : s.pc.toNat % 4 = 0 ∨ s.cfg.misalignedPcPolicy = .fetchUnaligned) (w : Word) :
    (s.placeWord w).fetch = .ok w :=
  State.fetch_eq_ok.2 ⟨hb, halign, by simp⟩

/-- Settles O42: the placed word is fetched, and an encoded instruction decodes to itself. -/
theorem stepRunsEncodedInstruction : Obligations.StepRunsEncodedInstruction :=
  fun s i hcfg hi hrun hb halign =>
    step_of_instr hrun (State.fetch_placeWord hb halign _) (decodeOfEncodeIsIdentity s.cfg i hcfg hi)

/-- Settles O15: the store leaves its word where the next pc points. -/
theorem storeSeenByNextFetch : Obligations.StoreSeenByNextFetch := by
  intro s t rs1 rs2 imm haddr hb halign h
  have heff : s.effAddr rs1 imm = s.pc + 4 := haddr
  have ht := eq_of_exec_sw (heff ▸ hb) h
  rw [heff] at ht
  have hf : t.fetch = .ok (s.readReg rs2) := by
    rw [State.fetch_eq_ok, ht]
    exact ⟨hb, halign, (Memory.read32_write32_self ..).symm⟩
  have hcfg : t.cfg = s.cfg := by rw [ht]
  have hrun : t.run = s.run := by rw [ht]
  exact ⟨hf, fun i hr hd => step_of_instr (hrun.trans hr) hf (hcfg ▸ hd),
    fun raw hr hd => step_of_unknown (hrun.trans hr) hf (hcfg ▸ hd)⟩

/-- R171 under the policy Halt. -/
theorem execUnknown_eq_of_halt {s : State} (hp : s.cfg.unknownPolicy = .halt) (raw : Word) :
    execUnknown raw s = .next { s with
      run := .halted (.unknownInstruction raw), diags := s.diags ++ [{ raw := raw, pc := s.pc }] } := by
  simp only [execUnknown, hp]
  rfl

/-- R171 under the policy Continue. -/
theorem execUnknown_eq_of_continue {s : State} (hp : s.cfg.unknownPolicy = .continue) (raw : Word) :
    execUnknown raw s =
      .next { s with pc := s.pc + 4, diags := s.diags ++ [{ raw := raw, pc := s.pc }] } := by
  simp only [execUnknown, hp]
  rfl

/-- Settles O44: the step is the execution of the `Unknown`, whose answer the policy decides. -/
theorem unknownHaltsOrContinues : Obligations.UnknownHaltsOrContinues := by
  intro s w hrun hf hd
  rw [step_of_unknown hrun hf hd]
  exact ⟨fun hp => execUnknown_eq_of_halt hp w, fun hp => execUnknown_eq_of_continue hp w⟩

/-! ### Halts -/

/-- Settles O43: the two ways a fetch halts exclude each other at the bound. -/
theorem fetchHaltsInPriorityOrder : Obligations.FetchHaltsInPriorityOrder :=
  fun _ hrun => ⟨fun hout => step_of_fetch_error hrun (State.fetch_eq_error.2 (.inl ⟨hout, rfl⟩)),
    fun hin hmis hp => step_of_fetch_error hrun (State.fetch_eq_error.2 (.inr ⟨hin, hmis, hp, rfl⟩))⟩

/-- R195: a halted machine has no step. -/
theorem step_of_halted {s : State} {reason : HaltReason} (h : s.run = .halted reason) :
    step s = .fault reason.toFault := by
  unfold step
  rw [h]

/-- Settles O50: a halted machine answers its reason's fault, which is `fatal` but for an `Unknown`. -/
theorem fatalHaltsAreFaults : Obligations.FatalHaltsAreFaults :=
  fun _ => ⟨fun _ => step_of_halted, fun _ => step_of_halted, fun _ => step_of_halted, fun _ => step_of_halted⟩

theorem run_of_boot {cfg : Config} {image : List Byte} {s : State} (h : boot cfg image = .next s) :
    s.run = .running := by
  obtain ⟨-, rfl⟩ := boot_eq_next.1 h
  rfl

/-- Settles O49: a halted machine's step faults, and every start of a run is Running. -/
theorem haltedIsTerminal : Obligations.HaltedIsTerminal := by
  refine ⟨fun s reason hrun => ⟨fun t h => ?_, fun input t h => ?_⟩, fun s image hfits => ?_⟩
  · cases (step_of_halted hrun).symm.trans h
  · cases input with
    | rst image => exact ⟨image, rfl, h, run_of_boot h⟩
    | step => cases (step_of_halted hrun).symm.trans h
  · have hboot : boot s.cfg image = _ := boot_eq_next.2 ⟨hfits, rfl⟩
    exact ⟨_, hboot, hboot, run_of_boot hboot⟩

/-- A fetch halt is fatal (R196). -/
theorem fatal_of_fetch_error {s : State} {reason : HaltReason} (h : s.fetch = .error reason) : reason.fatal = true := by
  obtain ⟨-, rfl⟩ | ⟨-, -, -, rfl⟩ := State.fetch_eq_error.1 h <;> rfl

/-- Settles O53: a step that does not halt fatally did not halt at its fetch. -/
theorem nonFatalStepsFetchAligned : Obligations.NonFatalStepsFetchAligned := by
  intro s t h hsafe
  obtain ⟨-, ⟨reason, hf, rfl⟩ | ⟨w, hf, -⟩⟩ := step_cases h
  · exact absurd (fatal_of_fetch_error hf) (Bool.eq_false_iff.1 hsafe)
  · obtain ⟨hb, halign, -⟩ := State.fetch_eq_ok.1 hf
    refine ⟨hb, fun hp => halign.resolve_right fun hp' => ?_⟩
    cases hp.symm.trans hp'

/-- An instruction that halts a running machine is a load or store out of bounds, and writes `run` only (R194). -/
theorem eq_of_exec_halted {i : Instr} {s t : State} {reason : HaltReason} (hrun : s.run = .running)
    (h : exec i s = .next t) (hhalt : t.run = .halted reason) :
    t = { s with run := .halted reason } ∧ ∃ ea, reason = .dataOutOfBounds ea := by
  obtain ⟨rd, v, he⟩ | ⟨rs1, rs2, imm, -, -, he⟩ | ⟨rs1, imm, -, -, he⟩ := exec_cases i s
  · cases he.symm.trans h
    simp [hrun] at hhalt
  · cases he.symm.trans h
    cases hrun.symm.trans hhalt
  · cases he.symm.trans h
    cases hhalt
    exact ⟨rfl, _, rfl⟩

/-- An `Unknown` that halts a running machine writes `run` and its diagnostic only (R171). -/
theorem eq_of_execUnknown_halted {raw : Word} {s t : State} {reason : HaltReason} (hrun : s.run = .running)
    (h : execUnknown raw s = .next t) (hhalt : t.run = .halted reason) :
    reason = .unknownInstruction raw ∧
      t = { s with run := .halted reason, diags := s.diags ++ [{ raw := raw, pc := s.pc }] } := by
  obtain ⟨-, he⟩ | ⟨-, he⟩ := execUnknown_cases raw s
  · cases he.symm.trans h
    cases hhalt
    exact ⟨rfl, rfl⟩
  · cases he.symm.trans h
    cases hrun.symm.trans hhalt

/-- Settles O48: the three ways a step can halt, at the fetch, at a load or store, at an `Unknown`. -/
theorem haltWritesOnlyRun : Obligations.HaltWritesOnlyRun := by
  intro s t reason h hhalt
  obtain ⟨hrun, ⟨reason', hf, rfl⟩ | ⟨w, -, ⟨i, -, hi⟩ | ⟨raw, -, hu⟩⟩⟩ := step_cases h
  · cases hhalt
    obtain ⟨-, rfl⟩ | ⟨-, -, -, rfl⟩ := State.fetch_eq_error.1 hf <;> simp
  · obtain ⟨rfl, ea, rfl⟩ := eq_of_exec_halted hrun hi hhalt
    simp
  · obtain ⟨rfl, rfl⟩ := eq_of_execUnknown_halted hrun hu hhalt
    rfl

/-! ### Parameters, memory and diagnostics -/

theorem cfg_of_exec {i : Instr} {s t : State} (h : exec i s = .next t) : t.cfg = s.cfg := by
  obtain ⟨rd, v, he⟩ | ⟨rs1, rs2, imm, -, -, he⟩ | ⟨rs1, imm, -, -, he⟩ := exec_cases i s <;>
  · cases he.symm.trans h
    simp

theorem diags_of_exec {i : Instr} {s t : State} (h : exec i s = .next t) : t.diags = s.diags := by
  obtain ⟨rd, v, he⟩ | ⟨rs1, rs2, imm, -, -, he⟩ | ⟨rs1, imm, -, -, he⟩ := exec_cases i s <;>
  · cases he.symm.trans h
    simp

/-- R30, R56: an instruction leaves memory, or is a store in bounds. -/
theorem mem_of_exec {i : Instr} {s t : State} (h : exec i s = .next t) :
    t.mem = s.mem ∨ ∃ rs1 rs2 imm, i = .sw rs1 rs2 imm ∧ (s.effAddr rs1 imm).toNat + 4 ≤ s.cfg.memSize := by
  obtain ⟨rd, v, he⟩ | ⟨rs1, rs2, imm, hi, hb, -⟩ | ⟨rs1, imm, -, -, he⟩ := exec_cases i s
  · cases he.symm.trans h
    exact .inl (by simp)
  · exact .inr ⟨rs1, rs2, imm, hi, hb⟩
  · cases he.symm.trans h
    exact .inl rfl

/-- R171: an `Unknown` leaves the parameters and memory, and records its diagnostic. -/
theorem frame_of_execUnknown {raw : Word} {s t : State} (h : execUnknown raw s = .next t) :
    t.cfg = s.cfg ∧ t.mem = s.mem ∧ t.diags = s.diags ++ [{ raw := raw, pc := s.pc }] := by
  obtain ⟨-, he⟩ | ⟨-, he⟩ := execUnknown_cases raw s <;>
  · cases he.symm.trans h
    simp

theorem cfg_of_step {s t : State} (h : step s = .next t) : t.cfg = s.cfg := by
  obtain ⟨-, ⟨reason, -, rfl⟩ | ⟨w, -, ⟨i, -, hi⟩ | ⟨raw, -, hu⟩⟩⟩ := step_cases h
  · rfl
  · exact cfg_of_exec hi
  · exact (frame_of_execUnknown hu).1

/-- Settles O5: a step keeps the parameters, and a new run starts with them. -/
theorem parametersNeverChange : Obligations.ParametersNeverChange := by
  intro input s t h
  cases input with
  | rst image =>
    obtain ⟨-, rfl⟩ := boot_eq_next.1 h
    rfl
  | step => exact cfg_of_step h

/-- Settles O16: of all a step can execute, only a store in bounds writes memory. -/
theorem onlyStoresChangeMemory : Obligations.OnlyStoresChangeMemory := by
  intro s t h hne
  obtain ⟨-, ⟨reason, -, rfl⟩ | ⟨w, hf, ⟨i, hd, hi⟩ | ⟨raw, -, hu⟩⟩⟩ := step_cases h
  · exact absurd rfl hne
  · obtain hmem | ⟨rs1, rs2, imm, rfl, hb⟩ := mem_of_exec hi
    · exact absurd hmem hne
    · exact ⟨w, rs1, rs2, imm, hf, hd, hb⟩
  · obtain ⟨-, hmem, -⟩ := frame_of_execUnknown hu
    exact absurd hmem hne

/-! ### The diagnostics are not read -/

theorem writeReg_withDiags (s : State) (ds : List Diag) (rd : RegIdx) (v : Word) :
    ({ s with diags := ds } : State).writeReg rd v = { s.writeReg rd v with diags := ds } := by
  unfold State.writeReg
  split <;> rfl

theorem retire_withDiags {s t : State} {rd : RegIdx} {v : Word} (h : s.retire rd v = .next t) (ds : List Diag) :
    ({ s with diags := ds } : State).retire rd v = .next { t with diags := ds } := by
  cases h
  rw [State.retire_eq, writeReg_withDiags]
  rfl

/-- R175: an instruction does the same whatever diagnostics are recorded. -/
theorem exec_withDiags {i : Instr} {s t : State} (h : exec i s = .next t) (ds : List Diag) :
    exec i { s with diags := ds } = .next { t with diags := ds } := by
  cases i with
  | lw rd rs1 imm =>
    by_cases hb : (s.effAddr rs1 imm).toNat + 4 ≤ s.cfg.memSize
    · exact (execLw_of_inBounds (s := { s with diags := ds }) hb).trans
        (retire_withDiags ((execLw_of_inBounds hb).symm.trans h) ds)
    · cases (execLw_of_outOfBounds (Nat.not_le.1 hb)).symm.trans h
      exact execLw_of_outOfBounds (Nat.not_le.1 hb)
  | sw rs1 rs2 imm =>
    by_cases hb : (s.effAddr rs1 imm).toNat + 4 ≤ s.cfg.memSize
    · cases (execSw_of_inBounds hb).symm.trans h
      exact execSw_of_inBounds hb
    · cases (execSw_of_outOfBounds (Nat.not_le.1 hb)).symm.trans h
      exact execSw_of_outOfBounds (Nat.not_le.1 hb)
  | beq rs1 rs2 imm =>
    cases (exec_beq rs1 rs2 imm s).symm.trans h
    exact exec_beq rs1 rs2 imm _
  | bne rs1 rs2 imm =>
    cases (exec_bne rs1 rs2 imm s).symm.trans h
    exact exec_bne rs1 rs2 imm _
  | jal rd imm =>
    cases (exec_jal rd imm s).symm.trans h
    rw [exec_jal, writeReg_withDiags]
  | add | sub | or | and | pmul16 | padd16s | psub16 | psra16 | pack8 | addi | xori | lui | pmac8 | bitrev =>
    exact retire_withDiags h ds

theorem execUnknown_withDiags {raw : Word} {s t : State} (h : execUnknown raw s = .next t) (ds : List Diag) :
    execUnknown raw { s with diags := ds } = .next { t with diags := ds ++ [{ raw := raw, pc := s.pc }] } := by
  obtain ⟨hp, he⟩ | ⟨hp, he⟩ := execUnknown_cases raw s
  · cases he.symm.trans h
    exact execUnknown_eq_of_halt (s := { s with diags := ds }) hp raw
  · cases he.symm.trans h
    exact execUnknown_eq_of_continue (s := { s with diags := ds }) hp raw

/-- Settles O46: a step records one diagnostic for an `Unknown` and none otherwise, and neither the fetch nor what is
executed looks at those recorded before. -/
theorem diagnosticsAreNeverRead : Obligations.DiagnosticsAreNeverRead := by
  intro s t h
  obtain ⟨hrun, ⟨reason, hf, rfl⟩ | ⟨w, hf, ⟨i, hd, hi⟩ | ⟨raw, hd, hu⟩⟩⟩ := step_cases h
  · refine ⟨[], (List.append_nil _).symm, fun ds => ?_⟩
    rw [List.append_nil]
    exact step_of_fetch_error (s := { s with diags := ds }) hrun hf
  · refine ⟨[], (diags_of_exec hi).trans (List.append_nil _).symm, fun ds => ?_⟩
    rw [List.append_nil]
    exact (step_of_instr (s := { s with diags := ds }) hrun hf hd).trans (exec_withDiags hi ds)
  · obtain ⟨-, -, hdiags⟩ := frame_of_execUnknown hu
    exact ⟨_, hdiags, fun ds =>
      (step_of_unknown (s := { s with diags := ds }) hrun hf hd).trans (execUnknown_withDiags hu ds)⟩

end Sys2Proof.Machine
end

section
/-! What the data port shows of a step is what the step does to memory (R33), so the stores it shows over a run are the
run's writes (R59); and what boot leaves (R34, R210). -/

namespace Sys2Proof.Machine

/-! ### The data port -/

/-- What a data access says of memory before and after the step. -/
def DataAccess.Fits (s t : State) : DataAccess → Prop
  | .none => t.mem = s.mem
  | .load addr rdata => t.mem = s.mem ∧ addr.toNat + 4 ≤ s.cfg.memSize ∧ rdata = s.mem.read32 addr.toNat
  | .store addr wdata => addr.toNat + 4 ≤ s.cfg.memSize ∧ t.mem = s.mem.write32 addr.toNat wdata

/-- The word a data access writes, with its address. -/
def DataAccess.stores : DataAccess → List (Nat × Word)
  | .store addr wdata => [(addr.toNat, wdata)]
  | .load _ _ => []
  | .none => []

theorem fits_of_exec_lw {s t : State} {rd rs1 : RegIdx} {imm : Word}
    (hd : s.decoded = some (.instr (.lw rd rs1 imm))) (h : exec (.lw rd rs1 imm) s = .next t) :
    s.dataAccess.Fits s t := by
  have hmem : t.mem = s.mem := (mem_of_exec h).resolve_right fun ⟨_, _, _, hi, _⟩ => nomatch hi
  rw [State.dataAccess_of_lw hd]
  split
  case isTrue hb => exact ⟨hmem, hb, rfl⟩
  case isFalse => exact hmem

theorem fits_of_exec_sw {s t : State} {rs1 rs2 : RegIdx} {imm : Word}
    (hd : s.decoded = some (.instr (.sw rs1 rs2 imm))) (h : exec (.sw rs1 rs2 imm) s = .next t) :
    s.dataAccess.Fits s t := by
  rw [State.dataAccess_of_sw hd]
  split
  case isTrue hb =>
    refine ⟨hb, ?_⟩
    rw [eq_of_exec_sw hb h]
  case isFalse hb =>
    cases (execSw_of_outOfBounds (Nat.not_le.1 hb)).symm.trans h
    rfl

theorem fits_of_exec {i : Instr} {s t : State} (hd : s.decoded = some (.instr i)) (h : exec i s = .next t) :
    s.dataAccess.Fits s t := by
  cases i with
  | lw rd rs1 imm => exact fits_of_exec_lw hd h
  | sw rs1 rs2 imm => exact fits_of_exec_sw hd h
  | add | sub | or | and | pmul16 | padd16s | psub16 | psra16 | pack8 | addi | xori | lui | beq | bne | jal | pmac8
  | bitrev =>
    have hnone : s.dataAccess = .none := by
      unfold State.dataAccess
      rw [hd]
    rw [hnone]
    exact (mem_of_exec h).resolve_right fun ⟨_, _, _, hi, _⟩ => nomatch hi

/-- R33: the data port shows the access of the step, or there is none and memory stays. -/
theorem fits_of_step {s t : State} (h : step s = .next t) : s.dataAccess.Fits s t := by
  obtain ⟨hrun, ⟨reason, hf, rfl⟩ | ⟨w, hf, ⟨i, hd, hi⟩ | ⟨raw, hd, hu⟩⟩⟩ := step_cases h
  · rw [State.dataAccess_of_none (State.decoded_of_fetch_error hrun hf)]
    rfl
  · exact fits_of_exec ((State.decoded_of_fetch hrun hf).trans (congrArg some hd)) hi
  · rw [State.dataAccess_of_unknown ((State.decoded_of_fetch hrun hf).trans (congrArg some hd))]
    obtain ⟨-, hmem, -⟩ := frame_of_execUnknown hu
    exact hmem

/-! ### The diagnostic and the halted port -/

theorem State.diagOut_of_none {s : State} (h : s.decoded = none) : s.diagOut = none := by
  unfold State.diagOut
  rw [h]

theorem State.diagOut_of_instr {s : State} {i : Instr} (h : s.decoded = some (.instr i)) : s.diagOut = none := by
  unfold State.diagOut
  rw [h]

theorem State.diagOut_of_unknown {s : State} {raw : Word} (h : s.decoded = some (.unknown raw)) :
    s.diagOut = some { raw := raw, pc := s.pc } := by
  unfold State.diagOut
  rw [h]

/-- R33, R175: the diagnostic on the port is the one the step records. -/
theorem diags_of_step {s t : State} (h : step s = .next t) : t.diags = s.diags ++ s.diagOut.toList := by
  obtain ⟨hrun, ⟨reason, hf, rfl⟩ | ⟨w, hf, ⟨i, hd, hi⟩ | ⟨raw, hd, hu⟩⟩⟩ := step_cases h
  · rw [State.diagOut_of_none (State.decoded_of_fetch_error hrun hf)]
    exact (List.append_nil _).symm
  · rw [State.diagOut_of_instr ((State.decoded_of_fetch hrun hf).trans (congrArg some hd)), diags_of_exec hi]
    exact (List.append_nil _).symm
  · rw [State.diagOut_of_unknown ((State.decoded_of_fetch hrun hf).trans (congrArg some hd))]
    obtain ⟨-, -, hdiags⟩ := frame_of_execUnknown hu
    exact hdiags

theorem halted_ports_iff (s : State) : (ports s).halted = true ↔ s.run ≠ .running := by
  simp only [ports, State.haltReason?]
  cases s.run <;> simp

/-- Settles O47, port by port. -/
theorem portsDescribeStep : Obligations.PortsDescribeStep := by
  intro s t h
  obtain ⟨hrun, -⟩ := step_cases h
  refine ⟨?_, halted_ports_iff t, diags_of_step h, fits_of_step h⟩
  rw [← Bool.not_eq_true, halted_ports_iff]
  exact not_not.2 hrun

/-! ### The last write -/

theorem storesOf_succ {n : Nat} {s u : State} (h : step s = .next u) :
    storesOf (n + 1) s = s.dataAccess.stores ++ storesOf n u := by
  rw [storesOf, h]
  rfl

theorem lastWritten_append (ws ws' : List (Nat × Word)) (before : Byte) (a : Nat) :
    lastWritten (ws ++ ws') before a = lastWritten ws' (lastWritten ws before a) a :=
  List.foldl_append

/-- After one step a byte is the one the step stored there, or what it was. -/
theorem read_eq_lastWritten_of_fits {s t : State} {d : DataAccess} (h : d.Fits s t) (a : Nat) :
    Memory.read t.mem a = lastWritten d.stores (Memory.read s.mem a) a := by
  cases d with
  | none => exact congrArg (Memory.read · a) h
  | load addr rdata =>
    obtain ⟨hmem, -, -⟩ := h
    exact congrArg (Memory.read · a) hmem
  | store addr wdata =>
    obtain ⟨-, hmem⟩ := h
    rw [hmem]
    exact Memory.read_write32 ..

theorem read_eq_lastWritten_of_run {n : Nat} {s t : State} (h : Sys2Proof.core.run n s = .next t) (a : Nat) :
    Memory.read t.mem a = lastWritten (storesOf n s) (Memory.read s.mem a) a := by
  induction n generalizing s with
  | zero =>
    cases (run_zero s).symm.trans h
    rfl
  | succ n ih =>
    obtain ⟨u, hstep, hrun⟩ := run_succ_eq_next h
    rw [ih hrun, storesOf_succ hstep, lastWritten_append, read_eq_lastWritten_of_fits (fits_of_step hstep)]

/-! ### Boot and reset -/

theorem State.readReg_resetWith (cfg : Config) (r : RegIdx) : (State.resetWith cfg).readReg r = 0 := by
  by_cases hr : r = 0
  · subst hr
    rfl
  · rw [State.readReg_of_ne _ hr]
    exact Vector.getElem_replicate _

/-- R210, D21: the bytes of a loaded image, and zero beyond it. -/
theorem read_image_getD (image : List Byte) (k : Nat) :
    Memory.read (Memory.writeBytes [] 0 image) k = image.getD k 0x00 := by
  rw [read_image]
  split
  case isTrue => rfl
  case isFalse hout => exact (List.getD_eq_default _ _ (Nat.not_lt.1 hout)).symm

/-- Settles O3: boot is reset with the image written from address 0, when it fits. -/
theorem bootLoadsImageVerbatim : Obligations.BootLoadsImageVerbatim := by
  refine fun cfg image => ⟨fun hfits => ?_, fun hlong => if_neg (Nat.not_le.2 hlong)⟩
  exact ⟨_, boot_eq_next.2 ⟨hfits, rfl⟩, rfl, rfl, rfl, rfl,
    fun r => (State.readReg_congr rfl r).trans (State.readReg_resetWith cfg r), read_image_getD image⟩

/-- Settles O56: by induction over the run, and for a booted state from the bytes of its image. -/
theorem everyReadSeesLastWrite : Obligations.EveryReadSeesLastWrite := by
  refine ⟨fun n s t h a => read_eq_lastWritten_of_run h a, fun cfg image n s t hboot h a => ?_⟩
  obtain ⟨-, rfl⟩ := boot_eq_next.1 hboot
  rw [read_eq_lastWritten_of_run h a, ← read_image_getD]

/-- Settles O1: the fields of the reset state, and its zero registers and memory. -/
theorem resetStateAsSpecified : Obligations.ResetStateAsSpecified :=
  ⟨rfl, rfl, State.readReg_resetWith _, Memory.read_nil, rfl, rfl, rfl, rfl, by decide⟩

end Sys2Proof.Machine
end

section
/-! The invariant of the machine (Safety.lean): it holds at the start of a run, every step keeps it, and so it holds in
every state of every run. -/

namespace Sys2Proof.Machine

/-! ### The pc stays even (R140) -/

theorem even_toNat_add {a b : Word} (ha : a.toNat % 2 = 0) (hb : b.toNat % 2 = 0) : (a + b).toNat % 2 = 0 := by
  rw [BitVec.toNat_add]
  omega

theorem even_toNat_of_even_toInt {a : Word} (h : a.toInt % 2 = 0) : a.toNat % 2 = 0 := by
  have ha := BitVec.toInt_eq_toNat_cond a
  split at ha <;> omega

/-- From an even pc, a well-formed branch goes to an even pc whether or not it is taken. -/
theorem even_pc_branchEffect {s : State} {imm : Word} (himm : immOkB imm = true) (hpc : s.pc.toNat % 2 = 0)
    (taken : Bool) : (s.applyEffect (s.branchEffect taken imm)).pc.toNat % 2 = 0 := by
  obtain ⟨-, -, heven⟩ := immOkB_iff.1 himm
  rw [applyEffect_pc_branchEffect]
  split
  · exact even_toNat_add hpc (even_toNat_of_even_toInt heven)
  · exact even_toNat_add hpc rfl

/-- From an even pc, a well-formed instruction goes to an even pc. -/
theorem even_pc_effectOf {i : Instr} {s : State} (hi : i.wf = true) (hpc : s.pc.toNat % 2 = 0) :
    (s.applyEffect (effectOf i s)).pc.toNat % 2 = 0 := by
  cases i with
  | beq | bne => exact even_pc_branchEffect hi hpc _
  | jal rd imm =>
    obtain ⟨-, -, heven⟩ := immOkJ_iff.1 hi
    exact even_toNat_add hpc (even_toNat_of_even_toInt heven)
  | add | sub | or | and | pmul16 | padd16s | psub16 | psra16 | pack8 | addi | xori | lui | lw | sw | pmac8 | bitrev =>
    exact even_toNat_add hpc rfl

/-! ### The two kinds of next state -/

/-- A running next state meets the invariant when registers, memory and pc do. -/
theorem State.Inv.of_running {s t : State} (hs : s.Inv) (hcfg : t.cfg = s.cfg) (hx0 : t.regs[0] = s.regs[0])
    (hmem : Memory.wf t.mem = true) (hbound : ∀ c ∈ t.mem, c.1 < s.cfg.memSize) (hpc : t.pc.toNat % 2 = 0)
    (hrun : t.run = .running) : t.Inv where
  cfg_wf := hcfg ▸ hs.cfg_wf
  x0_zero := hx0.trans hs.x0_zero
  mem_wf := hmem
  mem_bound := hcfg ▸ hbound
  pc_even := hpc
  halt_ok _ h := nomatch hrun.symm.trans h

/-- Whether a reason fits a state does not depend on `run` or on the diagnostics. -/
theorem HaltReason.explains_withRunDiags {reason : HaltReason} {s : State} (run : RunState) (ds : List Diag)
    (h : reason.explains s) : reason.explains { s with run := run, diags := ds } := by
  cases reason <;> exact h

/-- A halt for a reason the state explains keeps the invariant (R194). -/
theorem State.Inv.of_halted {s : State} (hs : s.Inv) (reason : HaltReason) (ds : List Diag) (h : reason.explains s) :
    State.Inv { s with run := .halted reason, diags := ds } where
  cfg_wf := hs.cfg_wf
  x0_zero := hs.x0_zero
  mem_wf := hs.mem_wf
  mem_bound := hs.mem_bound
  pc_even := hs.pc_even
  halt_ok := by
    rintro _ ⟨⟩
    exact HaltReason.explains_withRunDiags _ ds h

/-- A fetch halts for a reason its state explains (R172, R193). -/
theorem explains_of_fetch_error {s : State} {reason : HaltReason} (h : s.fetch = .error reason) :
    reason.explains s := by
  obtain ⟨hout, rfl⟩ | ⟨hin, hmis, hp, rfl⟩ := State.fetch_eq_error.1 h
  · exact ⟨rfl, hout⟩
  · exact ⟨rfl, hin, hmis, hp⟩

/-! ### Every step -/

/-- A decoded instruction, executed, keeps the invariant. -/
theorem State.Inv.of_exec {s t : State} {w : Word} {i : Instr} (hs : s.Inv) (hrun : s.run = .running)
    (hf : s.fetch = .ok w) (hd : decode s.cfg w = .instr i) (h : exec i s = .next t) : t.Inv := by
  obtain ⟨rd, v, he⟩ | ⟨rs1, rs2, imm, -, hb, he⟩ | ⟨rs1, imm, hi, hout, he⟩ := exec_cases i s
  · cases he.symm.trans h
    refine hs.of_running (by simp) (by simp) (by simpa using hs.mem_wf) (by simpa using hs.mem_bound) ?_ (by simpa)
    rw [applyEffect_pc_writeReg]
    exact even_pc_effectOf (wf_of_row (decode_row hd)) hs.pc_even
  · cases he.symm.trans h
    refine hs.of_running rfl rfl (Memory.write32_wf hs.mem_wf _ _) (fun c hc => ?_)
      (even_toNat_add hs.pc_even rfl) hrun
    obtain hold | ⟨-, hlt⟩ := Memory.mem_write32 hc
    · exact hs.mem_bound c hold
    · exact hlt.trans_le hb
  · cases he.symm.trans h
    refine hs.of_halted (.dataOutOfBounds _) s.diags ⟨hout, w, hf, ?_⟩
    obtain ⟨rd, rfl⟩ | ⟨rs2, rfl⟩ := hi
    · exact .inl ⟨rd, rs1, imm, hd, rfl⟩
    · exact .inr ⟨rs1, rs2, imm, hd, rfl⟩

/-- A fetched `Unknown`, executed, keeps the invariant. -/
theorem State.Inv.of_execUnknown {s t : State} {w raw : Word} (hs : s.Inv) (hrun : s.run = .running)
    (hf : s.fetch = .ok w) (hd : decode s.cfg w = .unknown raw) (h : execUnknown raw s = .next t) : t.Inv := by
  obtain rfl : raw = w := raw_of_decode hd
  obtain ⟨hp, he⟩ | ⟨-, he⟩ := execUnknown_cases raw s
  · cases he.symm.trans h
    exact hs.of_halted (.unknownInstruction raw) _ ⟨hf, hd, hp⟩
  · cases he.symm.trans h
    exact hs.of_running rfl rfl hs.mem_wf hs.mem_bound (even_toNat_add hs.pc_even rfl) hrun

/-- Settles O54: a step halts at the fetch or executes the decoded word, and each keeps the invariant. -/
theorem stepKeepsInvariant : Obligations.StepKeepsInvariant := by
  intro s t hs h
  obtain ⟨hrun, ⟨reason, hf, rfl⟩ | ⟨w, hf, ⟨i, hd, hi⟩ | ⟨raw, hd, hu⟩⟩⟩ := step_cases h
  · exact hs.of_halted reason s.diags (explains_of_fetch_error hf)
  · exact hs.of_exec hrun hf hd hi
  · exact hs.of_execUnknown hrun hf hd hu

/-! ### Every run -/

/-- The machine right after reset meets the invariant under every legal setting. -/
theorem State.resetWith_inv {cfg : Config} (hcfg : cfg.wf = true) : (State.resetWith cfg).Inv where
  cfg_wf := hcfg
  x0_zero := Vector.getElem_replicate _
  mem_wf := Memory.wf_nil
  mem_bound _ hc := nomatch hc
  pc_even := rfl
  halt_ok _ h := nomatch h

/-- Settles O2: the default parameters are legal. -/
theorem resetMeetsInvariant : Obligations.ResetMeetsInvariant := State.resetWith_inv (by decide)

/-- Settles O4: boot is reset with the image written, whose cells lie below its length. -/
theorem bootMeetsInvariant : Obligations.BootMeetsInvariant := by
  intro cfg image s hcfg h
  obtain ⟨hfits, rfl⟩ := boot_eq_next.1 h
  refine (State.resetWith_inv hcfg).of_running rfl rfl (Memory.writeBytes_wf Memory.wf_nil 0 image) (fun c hc => ?_)
    rfl rfl
  obtain hold | ⟨-, hlt⟩ := Memory.mem_writeBytes hc
  · cases hold
  · exact (Nat.zero_add image.length ▸ hlt).trans_le hfits

/-- What every step keeps, every run keeps. -/
theorem State.Inv.of_run {n : Nat} {s t : State} (hs : s.Inv) (h : Sys2Proof.core.run n s = .next t) : t.Inv := by
  induction n generalizing s with
  | zero =>
    cases (run_zero s).symm.trans h
    exact hs
  | succ n ih =>
    obtain ⟨u, hstep, hrun⟩ := run_succ_eq_next h
    exact ih (stepKeepsInvariant s u hs hstep) hrun

/-- Settles O55: boot meets the invariant and every run keeps it. -/
theorem everyRunKeepsInvariant : Obligations.EveryRunKeepsInvariant :=
  fun cfg image _ s _ hcfg hboot h => State.Inv.of_run (bootMeetsInvariant cfg image s hcfg hboot) h

end Sys2Proof.Machine
end
